-- ==== Sys2Proof/Word.lean ====
section
/-! DEFINITION. The two word sizes of the machine: the 16-bit register cell and the 8-bit memory cell (R6, R8, R18). -/

namespace Sys2Proof

/-- A u16: a register cell, an instruction word, a two-byte memory value (R8, R18). -/
abbrev Word := BitVec 16

/-- A u8: a memory cell, an opcode, an immediate, a signal code (R6, R8). -/
abbrev Byte := BitVec 8

end Sys2Proof
end

