-- ==== Sys2Proof/Syntax.lean ====
section
/-! DEFINITION. The closed set of register names (R9, R18) and the closed sum type of operations (R12). -/

namespace Sys2Proof

/-- The register names, in the order R18 lists them. -/
inductive Reg where
  | A | B | C | M | SP | PC | BP | FLAGS
deriving DecidableEq, Repr, Inhabited

/-- The operations `Op` of R12, one constructor per row of the opcode table. -/
inductive Instr where
  /-- R90. -/
  | nop
  /-- R91. -/
  | push (imm : Byte)
  /-- R92. -/
  | popRegister (r : Reg)
  /-- R93. -/
  | addStack
  /-- R96: constructible, but no opcode decodes to it (R65). -/
  | addRegister (r1 r2 : Reg)
  /-- R98. -/
  | signal (code : Byte)
deriving DecidableEq, Repr, Inhabited

end Sys2Proof
end

