-- ==== Sys2Proof/Machine/Types.lean ====
section
/-! DEFINITION. The plain data the machine's state is made of: the register file, the bounded memory, the view a
signal handler receives, and what a host can bind to a signal code. -/

namespace Sys2Proof.Machine

/-- The register file: eight u16 cells, one per name (R18). -/
structure RegFile where
  a : Word
  b : Word
  c : Word
  m : Word
  sp : Word
  pc : Word
  bp : Word
  flags : Word
deriving DecidableEq, Repr, Inhabited

/-- The bounded memory (R28, R34): `capacity` is N, the number of bytes; `cells` lists the bytes that are not
zero, addresses strictly rising (`Memory.wf`). A byte not listed reads as 0x00, its reset value (R33). -/
structure Memory where
  capacity : Nat
  cells : List Host.Cell
deriving DecidableEq, Repr, Inhabited

/-- The failures of the host's own ports, which are not step faults (R44, R109): a memory access out of bounds,
with its base address, and a bulk load out of bounds, with its origin and length. -/
inductive PortError where
  | memReadFault (addr : Nat)
  | memWriteFault (addr : Nat)
  | loadOutOfBounds (origin length : Nat)
deriving DecidableEq, Repr

/-- The view `V = (x, mem, halt)` a handler receives and returns (R99). The handler table is not part of it (R104). -/
structure View where
  regs : RegFile
  mem : Memory
  halt : Bool
deriving DecidableEq, Repr, Inhabited

/-- One use of a port by a handler that is written out as data: the register port (R32), the memory port with its
bounds checks (R45), the halt flag (R99). -/
inductive HandlerAction where
  | setReg (r : Reg) (v : Word)
  | copyReg (dst src : Reg)
  | load8 (dst : Reg) (addr : Nat)
  | load16 (dst : Reg) (addr : Nat)
  | store8 (addr : Nat) (v : Byte)
  | store16 (addr : Nat) (v : Word)
  | setHalt (v : Bool)
deriving DecidableEq, Repr

/-- A handler as the table holds it (R27, R99). State is plain data, so the table names handlers (log 2). -/
inductive Handler where
  /-- The reference halt handler (R106). -/
  | halt
  /-- A handler written out as data: port uses in order; then it succeeds, or fails with the payload the host names
  by a number (log 3, log 5). -/
  | script (actions : List HandlerAction) (failsWith : Option Nat)
  /-- A callback of the host: its body is `Config.hostHandler id`, of which nothing is known (R5(e)). -/
  | host (id : Nat)
deriving DecidableEq, Repr, Inhabited

/-- The signal handler table (R27): a partial map from codes to handlers, codes strictly rising (`HandlerTable.wf`). -/
abbrev HandlerTable := List (Byte × Handler)

end Sys2Proof.Machine
end

