-- ==== Sys2Proof/Config.lean ====
section
/-! DEFINITION. The implementation parameters of R6, their reference values, and the two things the spec leaves
free: the payload type of the host's handlers and their bodies. -/

namespace Sys2Proof

/-- `POP_RESERVED`: how the decoder treats bits [15:12] of a PopRegister word (R6, R63). -/
inductive PopReserved where
  | ignore
  | reject
deriving DecidableEq, Repr, Inhabited

/-- The reference value of `MEM_SIZE` (R6). -/
def Config.referenceMemSize : Nat := 8192

/-- The reference value of `POP_RESERVED` (R6). -/
def Config.referencePopReserved : PopReserved := .ignore

/-! ## `HandlerError` -/

/-- The payload the host names `k`, coded as a number. FREE VALUE (log 3): no body, so it cannot be proved that two
names stand for different payloads, nor that a number codes one. -/
opaque Config.payload (k : Nat) : Nat

/-- The payload type `HandlerError` of R6, left open by the spec (D12): the payloads that `Config.payload` names. No
claim can rest on which type it is; the machine only passes its values on (R101). DESIGN CHOICE (log 3), safe: it is
countable, and some payload exists. -/
structure Machine.HandlerError where
  code : Nat
  isPayload : ∃ k, Config.payload k = code
deriving DecidableEq, Repr

/-- The payload the host names `k`. -/
def Machine.HandlerError.named (k : Nat) : Machine.HandlerError := ⟨Config.payload k, k, rfl⟩

/-! ## Handler bodies -/

/-- What a handler answers (R99). -/
inductive Machine.HandlerOutcome where
  | ok
  | err (e : Machine.HandlerError)
deriving DecidableEq, Repr, Inhabited

/-- What the body of a host's handler answers for a view: the registers and the halt flag it leaves, the bytes it
wrote in order, and its outcome. DESIGN CHOICE (log 4), safe: memory is answered as the writes made, so that the
N-byte capacity cannot change (R99), and every memory of N bytes is reached by some list of writes. -/
structure Machine.HandlerReply where
  regs : Machine.RegFile
  stores : List Host.Cell
  halt : Bool
  outcome : Machine.HandlerOutcome
deriving DecidableEq, Repr, Inhabited

/-- The bodies of the host's handlers (R5(e), R99): `hostHandler id v` is what the callback named `id` answers for
the view `v`. FREE VALUE (log 2): no body, so nothing can be proved of what a callback does. -/
opaque Config.hostHandler (id : Nat) (v : Machine.View) : Machine.HandlerReply

end Sys2Proof
end

