-- ==== Sys2Proof/WellFormed.lean ====
section
/-! DEFINITION. Which operations memory can hold: the operand types already keep every register name and every
byte in range, so the one check left is that the operation has an encoding (R65, R69). -/

namespace Sys2Proof

/-- An operation is well formed AS AN INSTRUCTION OF A PROGRAM when the encoder gives it a word (R69).
AddRegister is not: it is valid for the execute port only (R65, R97). -/
def Instr.wellFormed : Instr → Bool
  | .nop => true
  | .push _ => true
  | .popRegister _ => true
  | .addStack => true
  | .addRegister _ _ => false
  | .signal _ => true

end Sys2Proof
end

