-- ==== Sys2Proof/Decode.lean ====
section
/-! DEFINITION. The instruction word and its fields (R53 to R57), the decoder block (R58 to R68) and, after it,
the encoder (R69). -/

namespace Sys2Proof

/-! ## Byte order and bit fields -/

/-- Two consecutive bytes as a u16, the byte at the lower address being the low half (R38, R53). -/
def wordOfBytes (lo hi : Byte) : Word := hi ++ lo

/-- Bits [7:0] of a word: the byte at the lower address, an instruction's opcode (R39, R54). -/
def lowByte (w : Word) : Byte := w.extractLsb' 0 8

/-- Bits [15:8] of a word: the byte at the higher address, an instruction's operand byte (R39, R54). -/
def highByte (w : Word) : Byte := w.extractLsb' 8 8

/-- The register index field of the operand byte, w[11:8] (R55). -/
def indexField (hi : Byte) : BitVec 4 := hi.extractLsb' 0 4

/-- The reserved field of the operand byte of a PopRegister word, w[15:12] (R55). -/
def reservedField (hi : Byte) : BitVec 4 := hi.extractLsb' 4 4

/-! ## Register indices -/

/-- `RegOfIndex` of R56, over the table of R19; indices 8 to 15 name no register. -/
def regOfIndex (i : BitVec 4) : Option Reg :=
  match i.toNat with
  | 0 => some .A
  | 1 => some .B
  | 2 => some .C
  | 3 => some .M
  | 4 => some .SP
  | 5 => some .PC
  | 6 => some .BP
  | 7 => some .FLAGS
  | _ => none

/-- `IndexOf` of R56: the stable index of each name (R19). -/
def indexOf : Reg → BitVec 4
  | .A => 0
  | .B => 1
  | .C => 2
  | .M => 3
  | .SP => 4
  | .PC => 5
  | .BP => 6
  | .FLAGS => 7

/-! ## The decoder -/

/-- `DecodeError` of R58. -/
inductive DecodeError where
  /-- The opcode byte has no defined case (R61). -/
  | unknownOpcode (opc : Byte)
  /-- The register field of a PopRegister word names no register, with the offending value (R62, R63). -/
  | invalidRegister (v : Byte)
deriving DecidableEq, Repr

/-- The opcode 0x02 case of the decoder, on the operand byte (R58, R62, R63). -/
def decodePop (p : PopReserved) (hi : Byte) : Except DecodeError Instr :=
  if p = .reject ∧ reservedField hi ≠ 0 then .error (.invalidRegister hi)
  else
    match regOfIndex (indexField hi) with
    | some r => .ok (.popRegister r)
    | none => .error (.invalidRegister ((indexField hi).zeroExtend 8))

/-- The decoder, total on all 65536 words (R58). -/
def decode (p : PopReserved) (w : Word) : Except DecodeError Instr :=
  if lowByte w = 0x00 then .ok .nop
  else if lowByte w = 0x01 then .ok (.push (highByte w))
  else if lowByte w = 0x02 then decodePop p (highByte w)
  else if lowByte w = 0x03 then .ok .addStack
  else if lowByte w = 0xF0 then .ok (.signal (highByte w))
  else .error (.unknownOpcode (lowByte w))

/-- The decoder on the two bytes of an instruction as memory holds them, opcode first (R41, R53). -/
def decodeBytes (p : PopReserved) (lo hi : Byte) : Except DecodeError Instr := decode p (wordOfBytes lo hi)

/-! ## The decoder's output bundle -/

/-- The fixed-width rendering of a decoder result (R68). -/
structure DecoderOutput where
  ok : BitVec 1
  tag : BitVec 3
  arg8 : Byte
  r1 : BitVec 3
  r2 : BitVec 3
  ekind : BitVec 1
  einfo : Byte
deriving DecidableEq, Repr

/-- A register index on the three bits of the bundle (R68). -/
def indexBits (r : Reg) : BitVec 3 := (indexOf r).truncate 3

/-- The bundle of an operation; tags follow the listed variant order, AddRegister's is driven by the execute port
only (R68). DESIGN CHOICE (log 10), unsafe: PopRegister's one register is on `r1`; R68 does not say which of `r1` and
`r2` carries it. -/
def opOutput : Instr → DecoderOutput
  | .nop => ⟨1, 0, 0, 0, 0, 0, 0⟩
  | .push imm => ⟨1, 1, imm, 0, 0, 0, 0⟩
  | .popRegister r => ⟨1, 2, 0, indexBits r, 0, 0, 0⟩
  | .addStack => ⟨1, 3, 0, 0, 0, 0, 0⟩
  | .addRegister r1 r2 => ⟨1, 4, 0, indexBits r1, indexBits r2, 0, 0⟩
  | .signal code => ⟨1, 5, code, 0, 0, 0, 0⟩

/-- The bundle of a decode result (R68). DESIGN CHOICE (log 10), unsafe: with `ok` 0 the tag and every other field
that carries nothing of the failure is driven 0; R68 does not say what they show. -/
def decoderOutput : Except DecodeError Instr → DecoderOutput
  | .ok i => opOutput i
  | .error (.unknownOpcode o) => ⟨0, 0, 0, 0, 0, 0, o⟩
  | .error (.invalidRegister v) => ⟨0, 0, 0, 0, 0, 1, v⟩

/-! ## The encoder -/

/-- The encoder (R69): ignored and reserved bits are 0, and AddRegister is refused. -/
def encode : Instr → Option Word
  | .nop => some (wordOfBytes 0x00 0)
  | .push imm => some (wordOfBytes 0x01 imm)
  | .popRegister r => some (wordOfBytes 0x02 ((indexOf r).zeroExtend 8))
  | .addStack => some (wordOfBytes 0x03 0)
  | .addRegister _ _ => none
  | .signal code => some (wordOfBytes 0xF0 code)

/-- The bytes of an instruction in address order, opcode first (R41, R71). -/
def encodeBytes (i : Instr) : Option (List Byte) := (encode i).map fun w => [lowByte w, highByte w]

/-- The flat byte stream of a program (R71), where every operation has an encoding. -/
def programImage : List Instr → Option (List Byte)
  | [] => some []
  | i :: rest =>
    match encodeBytes i, programImage rest with
    | some bs, some more => some (bs ++ more)
    | _, _ => none

/-! ## Notation -/

/-- The spec's shorthand `Halt` (R73): it halts only where the host has bound code 0xF0 to the halt handler. -/
def Instr.haltShorthand : Instr := .signal 0xF0

/-- A register's name as a listing writes it (R72). -/
def Reg.text : Reg → String
  | .A => "A"
  | .B => "B"
  | .C => "C"
  | .M => "M"
  | .SP => "SP"
  | .PC => "PC"
  | .BP => "BP"
  | .FLAGS => "FLAGS"

/-- An operation in the spec's assembly notation, numbers in decimal (R72). -/
def Instr.text : Instr → String
  | .nop => "Nop"
  | .push imm => "Push " ++ toString imm.toNat
  | .popRegister r => "PopRegister " ++ r.text
  | .addStack => "AddStack"
  | .addRegister r1 r2 => "AddRegister " ++ r1.text ++ ", " ++ r2.text
  | .signal code => "Signal " ++ toString code.toNat

/-! ## The host's question -/

/-- The instruction the decoder reads, under the reference `POP_RESERVED`, from a word whose bits are `w`, of which
the table gives `nbits`; the bits above are 0. The word is laid out as two bytes, low byte first, and decoded. -/
def decodeTableWord (nbits w : Nat) : Option Instr :=
  let word : Word := BitVec.ofNat 16 (w % 2 ^ nbits)
  match decodeBytes Config.referencePopReserved (lowByte word) (highByte word) with
  | .ok i => some i
  | .error _ => none

end Sys2Proof
end

