-- ==== Sys2Proof/Machine/Flags.lean ====
section
/-! DEFINITION. The machine's only arithmetic on register values, and its flag computations, of which there are none:
no operation sets a condition code, and FLAGS is an ordinary cell (R24). -/

namespace Sys2Proof.Machine

/-- `a +16 b` of R8, the sum of AddStack and AddRegister: modulo 65536, with no carry or overflow reported anywhere
(R24, R93, R96). -/
def add16 (a b : Word) : Word := a + b

/-- `a -16 b` of R8. -/
def sub16 (a b : Word) : Word := a - b

end Sys2Proof.Machine
end

