-- ==== Sys2Proof/Machine/Operands.lean ====
section
/-! DEFINITION. The operand forms (R55 to R57). Register operands are names already (R20) and a signal code is the
operand byte unchanged, so the one computation is Push's immediate. -/

namespace Sys2Proof.Machine

/-- Push's immediate as a u16: zero-extended, never sign-extended, scaled or shifted (R57, R91). -/
def immWord (imm : Byte) : Word := imm.zeroExtend 16

end Sys2Proof.Machine
end

