-- ==== Sys2Proof/Machine/State.lean ====
section
/-! DEFINITION. The engine's state (R13), what a step can stop with (R109), and the state after reset (R33, R128). -/

namespace Sys2Proof.Machine

/-- The engine state `S = (x, mem, halt, handlers)` of R13, with the parameter `POP_RESERVED` (R6) beside it; the
parameter `MEM_SIZE` is `mem.capacity`. No step changes either parameter. -/
structure State where
  /-- `POP_RESERVED` (R6, R63). -/
  popReserved : PopReserved
  /-- The register file (R18), the program counter (R22) and the stack pointer (R23) among its cells. -/
  regs : RegFile
  /-- The memory array (R28). -/
  mem : Memory
  /-- The halt flag (R26). -/
  halt : Bool
  /-- The signal handler table (R27). -/
  handlers : HandlerTable
deriving DecidableEq, Repr

/-- The fault kinds of R109, each with its info value and, in `left`, the state the failed step leaves (R118): the
`S'` of the spec's `(S', Err(f))` (R74). A later step runs on that state (R82, R127). -/
inductive Fault where
  /-- Code 1, raised by the fetch of any step at an out-of-bounds pc (R110). Safe: the spec's own fault. -/
  | fetchFault (pc : Word) (left : State)
  /-- Code 2, raised by the decoder for an opcode with no defined case (R111). Safe: the spec's own fault. -/
  | unknownOpcode (opc : Byte) (left : State)
  /-- Code 3, raised by the decoder for a PopRegister word whose field names no register (R112). Safe: the spec's own
  fault. -/
  | invalidRegister (v : Byte) (left : State)
  /-- Code 4, raised by a pop whose read is out of bounds: PopRegister, AddStack (R113). Safe: the spec's own fault. -/
  | memReadFault (addr : Word) (left : State)
  /-- Code 5, raised by a push whose write is out of bounds: Push (R114). Safe: the spec's own fault. -/
  | memWriteFault (addr : Word) (left : State)
  /-- Code 6, raised by a pop with sp < 2: PopRegister, AddStack (R115). Safe: the spec's own fault. -/
  | stackUnderflow (sp : Word) (left : State)
  /-- Code 7, raised by Signal for an unbound code (R116). Safe: the spec's own fault. -/
  | unknownSignal (code : Byte) (left : State)
  /-- Code 8, raised by Signal when the handler fails, its payload passed on unchanged (R117). Safe: the spec's own
  fault. -/
  | handlerFailure (e : HandlerError) (left : State)
deriving DecidableEq, Repr

/-- Reasons a step gives no meaning. No step of this model refuses: the spec gives every operation its effect. -/
inductive Refusal where
  /-- An operation whose meaning is not written yet; raised by no arm of `exec`. Safe. -/
  | notModelled (mnemonic : String)
deriving DecidableEq, Repr

/-- Construction of an engine with `MEM_SIZE` n and `POP_RESERVED` p (R33, R128): registers 0, memory zero-filled,
halt false, handler table empty. -/
def State.construct (n : Nat) (p : PopReserved) : State where
  popReserved := p
  regs := ⟨0, 0, 0, 0, 0, 0, 0, 0⟩
  mem := ⟨n, []⟩
  halt := false
  handlers := []

/-- The machine right after reset, at the reference parameters of R6. -/
def State.reset : State := State.construct Config.referenceMemSize Config.referencePopReserved

end Sys2Proof.Machine
end

