-- ==== Sys2Proof/Machine/Ops.lean ====
section
/-! DEFINITION. The named operations over registers, memory and the handler table: register access, the four memory
primitives and the bulk load, the stack primitives, fetch and advance, faults, and the trap of a Signal. -/

namespace Sys2Proof.Machine

/-! ## Registers (R20) -/

/-- `x[r]`: each name denotes its own cell, none hardwired, none aliased (R9, R20). -/
def RegFile.get (x : RegFile) : Reg → Word
  | .A => x.a
  | .B => x.b
  | .C => x.c
  | .M => x.m
  | .SP => x.sp
  | .PC => x.pc
  | .BP => x.bp
  | .FLAGS => x.flags

/-- `x[r] <- v` (R9, R20). -/
def RegFile.set (x : RegFile) (r : Reg) (v : Word) : RegFile :=
  match r with
  | .A => { x with a := v }
  | .B => { x with b := v }
  | .C => { x with c := v }
  | .M => { x with m := v }
  | .SP => { x with sp := v }
  | .PC => { x with pc := v }
  | .BP => { x with bp := v }
  | .FLAGS => { x with flags := v }

/-- `x[r]` in a state. -/
def State.reg (s : State) (r : Reg) : Word := s.regs.get r

/-- `x[r] <- v` in a state. -/
def State.setReg (s : State) (r : Reg) (v : Word) : State := { s with regs := s.regs.set r v }

/-! ## Memory cells -/

/-- The byte a cell list holds at an address; an address not listed reads as 0x00 (R33, R48). -/
def cellAt : List Host.Cell → Nat → Byte
  | [], _ => 0
  | (k, b) :: rest, a => if k = a then b else cellAt rest a

/-- The list without an address. -/
def eraseCell (cells : List Host.Cell) (a : Nat) : List Host.Cell := cells.filter fun c => c.1 ≠ a

/-- The list with a byte put where its address belongs. -/
def insertCell (a : Nat) (v : Byte) : List Host.Cell → List Host.Cell
  | [] => [(a, v)]
  | (k, b) :: rest => if a < k then (a, v) :: (k, b) :: rest else (k, b) :: insertCell a v rest

/-- The list after a byte is written; writing 0x00 leaves the address unlisted. -/
def storeCell (cells : List Host.Cell) (a : Nat) (v : Byte) : List Host.Cell :=
  if v = 0 then eraseCell cells a else insertCell a v (eraseCell cells a)

/-- `mem[a]`, with no bounds check. -/
def Memory.byte (m : Memory) (a : Nat) : Byte := cellAt m.cells a

/-- `mem[a] <- v`, with no bounds check. -/
def Memory.setByte (m : Memory) (a : Nat) (v : Byte) : Memory := { m with cells := storeCell m.cells a v }

/-- The canonical form: addresses strictly rising, no entry 0x00, every address within the capacity. Memories of one
capacity in this form are equal exactly when all their bytes are. -/
abbrev Memory.wf (m : Memory) : Prop :=
  m.cells.Pairwise (fun c d => c.1 < d.1) ∧ ∀ c ∈ m.cells, c.2 ≠ 0 ∧ c.1 < m.capacity

/-! ## Memory primitives: the bounds tests are on natural numbers and never wrap (R40); no alignment (R42) -/

/-- `MemRead(addr, 1)` (R36). -/
def Memory.read8 (m : Memory) (addr : Nat) : Except PortError Byte :=
  if addr ≥ m.capacity then .error (.memReadFault addr) else .ok (m.byte addr)

/-- `MemWrite(addr, 1, v)` (R37). -/
def Memory.write8 (m : Memory) (addr : Nat) (v : Byte) : Except PortError Memory :=
  if addr ≥ m.capacity then .error (.memWriteFault addr) else .ok (m.setByte addr v)

/-- `MemRead(addr, 2)`, low byte at the lower address (R38, R41). -/
def Memory.read16 (m : Memory) (addr : Nat) : Except PortError Word :=
  if addr + 1 ≥ m.capacity then .error (.memReadFault addr)
  else .ok (wordOfBytes (m.byte addr) (m.byte (addr + 1)))

/-- `MemWrite(addr, 2, v)`, both bytes or neither (R39, R41). -/
def Memory.write16 (m : Memory) (addr : Nat) (v : Word) : Except PortError Memory :=
  if addr + 1 ≥ m.capacity then .error (.memWriteFault addr)
  else .ok ((m.setByte addr (lowByte v)).setByte (addr + 1) (highByte v))

/-- The bytes of a list written in order from an address, with no bounds check. -/
def Memory.setBytes (m : Memory) (addr : Nat) : List Byte → Memory
  | [] => m
  | b :: rest => (m.setByte addr b).setBytes (addr + 1) rest

/-- `Load(origin, bytes)` (R44): origin + L = N succeeds. -/
def Memory.load (m : Memory) (origin : Nat) (bytes : List Byte) : Except PortError Memory :=
  if origin + bytes.length > m.capacity then .error (.loadOutOfBounds origin bytes.length)
  else .ok (m.setBytes origin bytes)

/-! ## Handler table (R27) -/

/-- Lookup by exact code (R103). -/
def HandlerTable.find : HandlerTable → Byte → Option Handler
  | [], _ => none
  | (c, h) :: rest, code => if c = code then some h else HandlerTable.find rest code

/-- The table with an entry put where its code belongs. -/
def HandlerTable.insert (code : Byte) (h : Handler) : HandlerTable → HandlerTable
  | [] => [(code, h)]
  | (c, g) :: rest =>
    if code.toNat < c.toNat then (code, h) :: (c, g) :: rest else (c, g) :: HandlerTable.insert code h rest

/-- `handlers(code) <- h`: registration overwrites any prior handler for that code (R102). -/
def HandlerTable.bind (t : HandlerTable) (code : Byte) (h : Handler) : HandlerTable :=
  HandlerTable.insert code h (t.filter fun e => e.1 ≠ code)

/-- The canonical form: codes strictly rising, so each code is bound at most once (R27). -/
abbrev HandlerTable.wf (t : HandlerTable) : Prop := t.Pairwise fun e f => e.1.toNat < f.1.toNat

/-- The state's lists are in their canonical forms. -/
abbrev State.wf (s : State) : Prop := s.mem.wf ∧ HandlerTable.wf s.handlers

/-! ## Stack primitives -/

/-- The offset the next push writes (R15, R88). -/
def pushAddr (s : State) : Nat := (s.reg .SP).toNat

/-- The offset the next pop reads, where sp is at least 2 (R89). -/
def popAddr (s : State) : Nat := (sub16 (s.reg .SP) 2).toNat

/-- `Push16(v)` (R88): on a fault neither sp nor memory has changed; the increment wraps modulo 65536. -/
def push16 (v : Word) (s : State) : Except Fault State :=
  match s.mem.write16 (pushAddr s) v with
  | .error _ => .error (.memWriteFault (s.reg .SP) s)
  | .ok mem => .ok ({ s with mem := mem }.setReg .SP (add16 (s.reg .SP) 2))

/-- `Pop16()` (R89): the underflow test is made before any arithmetic, and on a fault sp is as before the call. -/
def pop16 (s : State) : Except Fault (Word × State) :=
  if (s.reg .SP).toNat < 2 then .error (.stackUnderflow (s.reg .SP) s)
  else
    match s.mem.read16 (popAddr s) with
    | .error _ => .error (.memReadFault (sub16 (s.reg .SP) 2) s)
    | .ok v => .ok (v, s.setReg .SP (sub16 (s.reg .SP) 2))

/-! ## Fetch and advance -/

/-- Phase 1 (R75): a fetch out of bounds changes nothing and is a kind of its own (R110). -/
def fetch (s : State) : Except Fault Word :=
  match s.mem.read16 (s.reg .PC).toNat with
  | .error _ => .error (.fetchFault (s.reg .PC) s)
  | .ok w => .ok w

/-- Phase 2 (R76): PC advances by 2, modulo 65536. -/
def advance (s : State) : State := s.setReg .PC (add16 (s.reg .PC) 2)

/-! ## Faults (R108, R109, R118) -/

/-- The step fault of a decoder failure, on the state left by phase 2 (R77). -/
def decodeFault : DecodeError → State → Fault
  | .unknownOpcode o, s => .unknownOpcode o s
  | .invalidRegister v, s => .invalidRegister v s

/-- The state a failed step leaves (R118). -/
def Fault.left : Fault → State
  | .fetchFault _ s => s
  | .unknownOpcode _ s => s
  | .invalidRegister _ s => s
  | .memReadFault _ s => s
  | .memWriteFault _ s => s
  | .stackUnderflow _ s => s
  | .unknownSignal _ s => s
  | .handlerFailure _ s => s

/-- The same fault kind with the same info value, leaving another state. -/
def Fault.withLeft (t : State) : Fault → Fault
  | .fetchFault pc _ => .fetchFault pc t
  | .unknownOpcode o _ => .unknownOpcode o t
  | .invalidRegister v _ => .invalidRegister v t
  | .memReadFault a _ => .memReadFault a t
  | .memWriteFault a _ => .memWriteFault a t
  | .stackUnderflow sp _ => .stackUnderflow sp t
  | .unknownSignal c _ => .unknownSignal c t
  | .handlerFailure e _ => .handlerFailure e t

/-- The numeric code of a fault kind (R109); code 0, no fault, is `StepResult.code`'s. -/
def Fault.code : Fault → Nat
  | .fetchFault _ _ => 1
  | .unknownOpcode _ _ => 2
  | .invalidRegister _ _ => 3
  | .memReadFault _ _ => 4
  | .memWriteFault _ _ => 5
  | .stackUnderflow _ _ => 6
  | .unknownSignal _ _ => 7
  | .handlerFailure _ _ => 8

/-- The numeric code of a port failure: a bulk load's is 9, and the memory port fails with the kinds of the step's
memory faults (R109). -/
def PortError.code : PortError → Nat
  | .memReadFault _ => 4
  | .memWriteFault _ => 5
  | .loadOutOfBounds _ _ => 9

/-- The end of an execute phase: `raise` ends it at once with the fault (R11, R118). -/
def finish : Except Fault State → Host.Outcome State Fault Refusal
  | .ok s => .next s
  | .error f => .fault f

/-! ## The trap of a Signal (R107, R121, R122) -/

/-- The view a handler receives, `V = (x, mem, halt)` (R99). -/
def State.view (s : State) : View := ⟨s.regs, s.mem, s.halt⟩

/-- Trap entry (R121): the handler bound to exactly this code (R103). Entry saves nothing and changes no state. -/
def trapEnter (code : Byte) (s : State) : Except Fault Handler :=
  match HandlerTable.find s.handlers code with
  | none => .error (.unknownSignal code s)
  | some h => .ok h

/-- The engine's state with a handler's view merged in: halt is OR-ed, so it never reverts (R98, R100). -/
def State.merge (s : State) (v : View) : State :=
  { s with regs := v.regs, mem := v.mem, halt := s.halt || v.halt }

/-- Trap return (R122): nothing is restored, and a failing handler's writes stay (R101). -/
def trapReturn (s : State) (answer : View × HandlerOutcome) : Except Fault State :=
  match answer.2 with
  | .ok => .ok (s.merge answer.1)
  | .err e => .error (.handlerFailure e (s.merge answer.1))

/-- The dispatch of any handler `h : V -> (V', Outcome)` (R98, R99). -/
def dispatch (h : View → View × HandlerOutcome) (s : State) : Except Fault State := trapReturn s (h s.view)

end Sys2Proof.Machine
end

