-- ==== Sys2Proof/Machine/RegisterOps.lean ====
section
/-! DEFINITION. The operation AddRegister (42_register_ops.md), which only the execute port reaches (R97). -/

namespace Sys2Proof.Machine

/-- `Exec(AddRegister(r1, r2))`: `x[r1] <- x[r1] +16 x[r2]`, both read before r1 is written (R96). -/
def execAddRegister (r1 r2 : Reg) (s : State) : Host.Outcome State Fault Refusal :=
  .next (s.setReg r1 (add16 (s.reg r1) (s.reg r2)))

end Sys2Proof.Machine
end

