-- ==== Sys2Proof/Machine/Handlers.lean ====
section
/-! DEFINITION. What each handler the table can hold does to the view it receives (R99). -/

namespace Sys2Proof.Machine

/-- `x[r] <- v` in a view (R32). -/
def View.setReg (v : View) (r : Reg) (w : Word) : View := { v with regs := v.regs.set r w }

/-- The view with a byte written through the memory port; a write out of bounds leaves memory unchanged (R37, R45). -/
def View.store8 (v : View) (addr : Nat) (b : Byte) : View :=
  match v.mem.write8 addr b with
  | .ok mem => { v with mem := mem }
  | .error _ => v

/-- One port use of a handler written out as data (R32, R45). DESIGN CHOICE (log 5): a memory access out of bounds
changes nothing and the handler goes on. -/
def HandlerAction.act (v : View) : HandlerAction → View
  | .setReg r w => v.setReg r w
  | .copyReg dst src => v.setReg dst (v.regs.get src)
  | .load8 dst addr =>
    match v.mem.read8 addr with
    | .ok b => v.setReg dst (b.zeroExtend 16)
    | .error _ => v
  | .load16 dst addr =>
    match v.mem.read16 addr with
    | .ok w => v.setReg dst w
    | .error _ => v
  | .store8 addr b => v.store8 addr b
  | .store16 addr w =>
    match v.mem.write16 addr w with
    | .ok mem => { v with mem := mem }
    | .error _ => v
  | .setHalt b => { v with halt := b }

/-- The view a host callback's reply leaves: its registers and halt flag, and its byte writes in order (log 4). -/
def View.reply (v : View) (r : HandlerReply) : View :=
  let written := r.stores.foldl (fun u c => u.store8 c.1 c.2) v
  { regs := r.regs, mem := written.mem, halt := r.halt }

/-- How a handler written out as data ends: Ok, or failed with the payload of that name (R99, log 3). -/
def scriptOutcome : Option Nat → HandlerOutcome
  | none => .ok
  | some k => .err (.named k)

/-- A handler as the function `V -> (V', Outcome)` of R99. -/
def Handler.body : Handler → View → View × HandlerOutcome
  | .halt, v => ({ v with halt := true }, .ok)
  | .script actions failsWith, v => (actions.foldl HandlerAction.act v, scriptOutcome failsWith)
  | .host id, v => (v.reply (Config.hostHandler id v), (Config.hostHandler id v).outcome)

end Sys2Proof.Machine
end

