-- ==== Sys2Proof/Machine/SignalOps.lean ====
section
/-! DEFINITION. The operation Signal (43_signal.md): trap entry by exact code, the handler, trap return. -/

namespace Sys2Proof.Machine

/-- `Exec(Signal(code))` (R98). -/
def execSignal (code : Byte) (s : State) : Host.Outcome State Fault Refusal :=
  finish do
    let h ← trapEnter code s
    dispatch h.body s

end Sys2Proof.Machine
end

