-- ==== Sys2Proof/Machine/StackOps.lean ====
section
/-! DEFINITION. The operations Nop, Push, PopRegister and AddStack (41_stack_ops.md). Each is the execute phase alone,
on the state left by the PC advance (R78). -/

namespace Sys2Proof.Machine

/-- `Exec(Nop)`: no effect (R90). -/
def execNop (s : State) : Host.Outcome State Fault Refusal := .next s

/-- `Exec(Push(imm))` (R91). -/
def execPush (imm : Byte) (s : State) : Host.Outcome State Fault Refusal := finish (push16 (immWord imm) s)

/-- `Exec(PopRegister(r))`: the pop's decrement comes first, then the write of r (R92). -/
def execPopRegister (r : Reg) (s : State) : Host.Outcome State Fault Refusal :=
  finish do
    let (v, s) ← pop16 s
    pure (s.setReg r v)

/-- `Exec(AddStack)`: the first value popped is a, the second b; no sub-operation is rolled back (R93). -/
def execAddStack (s : State) : Host.Outcome State Fault Refusal :=
  finish do
    let (a, s) ← pop16 s
    let (b, s) ← pop16 s
    push16 (add16 a b) s

end Sys2Proof.Machine
end

