-- ==== Sys2Proof/Machine/Dispatch.lean ====
section
/-! DEFINITION. The execute phase: `Exec(op)` of R79, which is also the port `ExecOp`. -/

namespace Sys2Proof.Machine

/-- Phase 4 on the given state, with no fetch and no advance (R79). -/
def exec (i : Instr) (s : State) : Host.Outcome State Fault Refusal :=
  match i with
  | .nop => Sys2Proof.Machine.execNop s
  | .push imm => Sys2Proof.Machine.execPush imm s
  | .popRegister r => Sys2Proof.Machine.execPopRegister r s
  | .addStack => Sys2Proof.Machine.execAddStack s
  | .addRegister r1 r2 => Sys2Proof.Machine.execAddRegister r1 r2 s
  | .signal code => Sys2Proof.Machine.execSignal code s

end Sys2Proof.Machine
end

