-- ==== Sys2Proof/Machine/Step.lean ====
section
/-! DEFINITION. The step (R74, R80): fetch, advance, decode, execute. -/

namespace Sys2Proof.Machine

/-- One fetch-decode-execute cycle (R80). It does not read the halt flag (R82). -/
def step (s : State) : Host.Outcome State Fault Refusal :=
  match fetch s with
  | .error f => .fault f
  | .ok w =>
    match decode s.popReserved w with
    | .error e => .fault (decodeFault e (advance s))
    | .ok i => exec i (advance s)

/-- The state with a word of `nbits` table bits stored, low byte first, where the next step fetches. A pc whose word
is out of bounds has no such place, and the state is unchanged (log 8). -/
def State.withFetchWord (s : State) (nbits w : Nat) : State :=
  match s.mem.write16 (s.reg .PC).toNat (BitVec.ofNat 16 (w % 2 ^ nbits)) with
  | .ok mem => { s with mem := mem }
  | .error _ => s

end Sys2Proof.Machine
end

