-- ==== Sys2Proof/Machine/HostPort.lean ====
section
/-! DEFINITION. What the host can do to the engine between steps (R4, R17): registration, bulk load, the register and
memory ports, and the boot sequence of R131. -/

namespace Sys2Proof.Machine

/-- `Register(code, h)` (R102). -/
def State.register (s : State) (code : Byte) (h : Handler) : State :=
  { s with handlers := HandlerTable.bind s.handlers code h }

/-- `Load(origin, bytes)`: no register and no flag changes (R44). -/
def State.load (s : State) (origin : Nat) (bytes : List Byte) : Except PortError State :=
  match s.mem.load origin bytes with
  | .ok mem => .ok { s with mem := mem }
  | .error e => .error e

/-- The read side of the host register port (R32). -/
def State.hostReadReg (s : State) (r : Reg) : Word := s.reg r

/-- The write side of the host register port (R32). -/
def State.hostWriteReg (s : State) (r : Reg) (v : Word) : State := s.setReg r v

/-- The host memory port, one byte read (R36, R45). -/
def State.hostRead8 (s : State) (addr : Nat) : Except PortError Byte := s.mem.read8 addr

/-- The host memory port, two bytes read (R38, R45). -/
def State.hostRead16 (s : State) (addr : Nat) : Except PortError Word := s.mem.read16 addr

/-- The host memory port, one byte written (R37, R45). -/
def State.hostWrite8 (s : State) (addr : Nat) (v : Byte) : Except PortError State :=
  match s.mem.write8 addr v with
  | .ok mem => .ok { s with mem := mem }
  | .error e => .error e

/-- The host memory port, two bytes written (R39, R45). -/
def State.hostWrite16 (s : State) (addr : Nat) (v : Word) : Except PortError State :=
  match s.mem.write16 addr v with
  | .ok mem => .ok { s with mem := mem }
  | .error e => .error e

/-- The boot sequence (R131): construct, register the handlers in order, load once, then set registers in order. If
the load fails there is no engine to step. -/
def boot (n : Nat) (p : PopReserved) (bindings : List (Byte × Handler)) (origin : Nat) (image : List Byte)
    (regs : List (Reg × Word)) : Except PortError State :=
  let bound := bindings.foldl (fun s b => s.register b.1 b.2) (State.construct n p)
  match bound.load origin image with
  | .error e => .error e
  | .ok s => .ok (regs.foldl (fun s b => s.hostWriteReg b.1 b.2) s)

/-- The reference driver's boot (R133, informative): the image at offset 0 and the halt handler at code 0xF0. -/
def driverBoot (image : List Byte) : Except PortError State :=
  boot Config.referenceMemSize Config.referencePopReserved [(0xF0, .halt)] 0 image []

end Sys2Proof.Machine
end

