-- ==== Sys2Proof/Machine/RunLoop.lean ====
section
/-! DEFINITION. The step as the transaction of R74, the run loop of R86 and the engine as a finite-state machine
(R87). -/

namespace Sys2Proof.Machine

/-- `Result` of R74: Ok or the fault; the last case is the interface's and no step gives it. -/
inductive StepResult where
  | ok
  | err (f : Fault)
  | refused (r : Refusal)
deriving DecidableEq, Repr

/-- The hardware status output of R109: 0 for Ok, else the fault's code. The interface's last case has no code. -/
def StepResult.code : StepResult → Option Nat
  | .ok => some 0
  | .err f => some f.code
  | .refused _ => none

/-- An outcome as the pair `(S', Result)`, where a step that gives no meaning leaves the state it was given. -/
def outcomePair (s : State) : Host.Outcome State Fault Refusal → State × StepResult
  | .next t => (t, .ok)
  | .fault f => (f.left, .err f)
  | .refused r => (s, .refused r)

/-- `step : S -> (S', Result)` (R74). -/
def transaction (s : State) : State × StepResult := outcomePair s (step s)

/-- `ExecOp : (S, Op) -> (S', Result)` (R79). -/
def execOp (s : State) (i : Instr) : State × StepResult := outcomePair s (exec i s)

/-- How a run stands after some number of steps (R86). -/
inductive RunStatus where
  /-- `Halted(S)`: a handler set halt. -/
  | halted (s : State)
  /-- `Faulted(f, S)`: a step failed; S is the state `f` carries. -/
  | faulted (f : Fault)
  /-- Neither yet, after the steps allowed. -/
  | running (s : State)
  /-- The interface's third outcome, which no run reaches. -/
  | refused (r : Refusal)
deriving DecidableEq, Repr

/-- The reference run loop, cut off after `fuel` steps: step, end on a fault, end on halt (R86). -/
def runLoop : Nat → State → RunStatus
  | 0, s => .running s
  | fuel + 1, s =>
    match step s with
    | .fault f => .faulted f
    | .refused r => .refused r
    | .next t => if t.halt then .halted t else runLoop fuel t

/-! ## The finite-state machine -/

/-- The states of R87, each with what the engine holds on the way to it. -/
inductive Phase where
  | ready
  | fetch
  | advance (w : Word)
  | decode (w : Word)
  | execute (i : Instr)
  | dispatch (h : Handler)
  | done (r : StepResult)
deriving DecidableEq, Repr

/-- Where a phase goes when it ends the step with an outcome. -/
def phaseDone (s : State) (o : Host.Outcome State Fault Refusal) : Phase × State :=
  (.done (outcomePair s o).2, (outcomePair s o).1)

/-- One arrow of R87. From `ready` it is the host's request for a step; from `done`, the report of the result. -/
def phaseNext : Phase × State → Phase × State
  | (.ready, s) => (.fetch, s)
  | (.fetch, s) =>
    match Machine.fetch s with
    | .ok w => (.advance w, s)
    | .error f => phaseDone s (.fault f)
  | (.advance w, s) => (.decode w, Machine.advance s)
  | (.decode w, s) =>
    match Sys2Proof.decode s.popReserved w with
    | .ok i => (.execute i, s)
    | .error e => phaseDone s (.fault (decodeFault e s))
  | (.execute (.signal code), s) =>
    match trapEnter code s with
    | .ok h => (.dispatch h, s)
    | .error f => phaseDone s (.fault f)
  | (.execute i, s) => phaseDone s (exec i s)
  | (.dispatch h, s) => phaseDone s (finish (Machine.dispatch h.body s))
  | (.done _, s) => (.ready, s)

/-- Some number of arrows from a phase. -/
def phaseRun : Nat → Phase × State → Phase × State
  | 0, c => c
  | n + 1, c => phaseRun n (phaseNext c)

end Sys2Proof.Machine
end

