-- ==== Sys2Proof/Safety.lean ====
section
/-! DEFINITION. The terms claims use: the state a step leaves, what a run keeps, and a straight-line step. -/

namespace Sys2Proof.Safety

open Sys2Proof.Machine

/-- The state after a step, whether it ends Ok or with a fault (R74, R118). -/
def after (s : State) : State := (transaction s).1

/-- The instruction a step executes: the decoding of the word at pc (R75, R77). -/
def fetched (s : State) : Option Instr :=
  match fetch s with
  | .error _ => none
  | .ok w =>
    match decode s.popReserved w with
    | .error _ => none
    | .ok i => some i

/-- Steps that all end Ok, one after another. -/
inductive Steps : State → State → Prop where
  | refl (s : State) : Steps s s
  | tail (s t u : State) : Steps s t → step t = .next u → Steps s u

/-- `LoopsTo n s t`: n steps from s, each ending Ok with halt false after it, lead to t: the n turns after which the
run loop of R86 goes on. -/
inductive LoopsTo : Nat → State → State → Prop where
  | zero (s : State) : LoopsTo 0 s s
  | succ (n : Nat) (s t u : State) : step s = .next t → t.halt = false → LoopsTo n t u → LoopsTo (n + 1) s u

/-- States some boot sequence of R131 and some Ok steps lead to. -/
def Reachable (s : State) : Prop :=
  ∃ n p bindings origin image regs s0, boot n p bindings origin image regs = .ok s0 ∧ Steps s0 s

/-- A step by which no operation and no handler writes PC or SP otherwise than by the advance and the stack
primitives (R136). -/
def StraightLine (s : State) : Prop :=
  match fetched s with
  | some (.popRegister .PC) => False
  | some (.popRegister .SP) => False
  | some (.signal code) =>
    ∀ h, HandlerTable.find s.handlers code = some h →
      ((h.body (advance s).view).1.regs.pc = (advance s).regs.pc ∧
        (h.body (advance s).view).1.regs.sp = (advance s).regs.sp)
  | _ => True

end Sys2Proof.Safety
end

