-- ==== Sys2Proof/Certificates/Slice0/Obligations.lean ====
section
/-! DEFINITION. The statements for the provers, from the numbered rules of the spec. -/

open Sys2Proof Sys2Proof.Machine Sys2Proof.Safety

/-! ## Reset and the invariants -/

/-- R33: construction leaves every register 0, every one of the N bytes 0x00, halt false and all 256 codes unbound,
for every N and policy. -/
def Obligations.ConstructionGivesResetValues : Prop :=
  ∀ (n : Nat) (p : PopReserved),
    (∀ r, (State.construct n p).reg r = 0) ∧ (State.construct n p).mem.capacity = n ∧
      (∀ a, a < n → (State.construct n p).mem.read8 a = .ok 0) ∧ (State.construct n p).halt = false ∧
      ∀ code, HandlerTable.find (State.construct n p).handlers code = none

/-- The canonical forms hold at construction, at the reset state among others. -/
def Obligations.ConstructionIsWellFormed : Prop :=
  (∀ n p, (State.construct n p).wf) ∧ State.reset.wf

/-- Every step keeps the canonical forms of memory and of the handler table, whether it ends Ok or with a fault. -/
def Obligations.EveryStepKeepsWellFormed : Prop :=
  ∀ s : State, s.wf → (∀ t, step s = .next t → t.wf) ∧ ∀ f, step s = .fault f → f.left.wf

/-- The boot sequence and every later step keep the canonical forms: they hold in every reachable state. -/
def Obligations.ReachableStatesAreWellFormed : Prop :=
  ∀ s, Reachable s → s.wf

/-- No step, faulting or not, changes the memory capacity, the decoder policy or the handler table (R6, R27, R99). -/
def Obligations.NoStepChangesParametersOrTable : Prop :=
  ∀ s, (after s).mem.capacity = s.mem.capacity ∧ (after s).popReserved = s.popReserved ∧
    (after s).handlers = s.handlers

/-- R26: halt is false at construction; no step and no host port clears it; only a Signal sets it. -/
def Obligations.HaltNeverRevertsAndOnlySignalSetsIt : Prop :=
  (∀ n p, (State.construct n p).halt = false) ∧
    (∀ s, s.halt = true → (after s).halt = true) ∧
    (∀ s, (after s).halt ≠ s.halt → ∃ code, fetched s = some (.signal code)) ∧
    (∀ i s t, exec i s = .next t → t.halt ≠ s.halt → ∃ code, i = .signal code) ∧
    ∀ s : State, (∀ code h, (s.register code h).halt = s.halt) ∧ (∀ r v, (s.hostWriteReg r v).halt = s.halt) ∧
      (∀ o bs t, s.load o bs = .ok t → t.halt = s.halt) ∧ (∀ a v t, s.hostWrite8 a v = .ok t → t.halt = s.halt) ∧
      ∀ a v t, s.hostWrite16 a v = .ok t → t.halt = s.halt

/-- Memories of one capacity in the canonical form are equal when all their bytes are. -/
def Obligations.MemoryIsDeterminedByItsBytes : Prop :=
  ∀ m m' : Memory, m.wf → m'.wf → m.capacity = m'.capacity → (∀ a, a < m.capacity → m.byte a = m'.byte a) → m = m'

/-- No step and no execute phase gives up on an instruction: every outcome is a next state or a fault of R109. -/
def Obligations.NothingIsRefused : Prop :=
  (∀ s r, step s ≠ .refused r) ∧ ∀ i s r, exec i s ≠ .refused r

/-! ## The decoder and the encoder -/

/-- Words written out bit by bit from the formats of R55 decode to the instructions they stand for, PopRegister's for
each of the eight registers of R19. -/
def Obligations.WrittenOutWordsDecode : Prop :=
  ∀ p, decode p 0b0000000000000000 = .ok .nop ∧ decode p 0b0000101000000001 = .ok (.push 10) ∧
    decode p 0b0000000000000010 = .ok (.popRegister .A) ∧ decode p 0b0000000100000010 = .ok (.popRegister .B) ∧
    decode p 0b0000001000000010 = .ok (.popRegister .C) ∧ decode p 0b0000001100000010 = .ok (.popRegister .M) ∧
    decode p 0b0000010000000010 = .ok (.popRegister .SP) ∧ decode p 0b0000010100000010 = .ok (.popRegister .PC) ∧
    decode p 0b0000011000000010 = .ok (.popRegister .BP) ∧
    decode p 0b0000011100000010 = .ok (.popRegister .FLAGS) ∧ decode p 0b0000000000000011 = .ok .addStack ∧
    decode p 0b1111000011110000 = .ok (.signal 0xF0) ∧ decode p 0b0000000100000000 = .ok .nop ∧
    decodeBytes p 0x01 0x0A = .ok (.push 10)

/-- R70: every operation but AddRegister survives encoding and decoding under both policies; a word that decodes is the
encoding of its operation where it is canonical, and decodes like its canonical form in every case. -/
def Obligations.DecodeInvertsEncode : Prop :=
  (∀ p i, (∀ r1 r2, i ≠ .addRegister r1 r2) → ∃ w, encode i = some w ∧ decode p w = .ok i) ∧
    ∀ p w i, decode p w = .ok i → ∃ c, encode i = some c ∧ decode p c = .ok i ∧
      ((i = .nop ∨ i = .addStack → highByte w = 0) → (∀ r, i = .popRegister r → reservedField (highByte w) = 0) → c = w)

/-- R64: the operand byte of Nop and AddStack is ignored. -/
def Obligations.NopAndAddStackIgnoreTheOperandByte : Prop :=
  ∀ p hi, decode p (wordOfBytes 0x00 hi) = .ok .nop ∧ decode p (wordOfBytes 0x03 hi) = .ok .addStack

/-- R56, R62, R63: the register field of a PopRegister word, under both policies, by the index table of R19, written out.
Under Ignore only the low nibble counts and a failure carries it; under Reject the whole byte counts and a failure
carries the whole byte. -/
def Obligations.PopRegisterFieldUnderBothPolicies : Prop :=
  let table : List (Nat × Reg) := [(0, .A), (1, .B), (2, .C), (3, .M), (4, .SP), (5, .PC), (6, .BP), (7, .FLAGS)]
  (∀ r, ((indexOf r).toNat, r) ∈ table) ∧
  ∀ hi : Byte,
    (hi.toNat % 16 < 8 → ∃ r, (hi.toNat % 16, r) ∈ table ∧
      decode .ignore (wordOfBytes 0x02 hi) = .ok (.popRegister r)) ∧
    (8 ≤ hi.toNat % 16 → ∃ v : Byte, v.toNat = hi.toNat % 16 ∧
      decode .ignore (wordOfBytes 0x02 hi) = .error (.invalidRegister v)) ∧
    (hi.toNat < 8 → ∃ r, (hi.toNat, r) ∈ table ∧ decode .reject (wordOfBytes 0x02 hi) = .ok (.popRegister r)) ∧
    (8 ≤ hi.toNat → decode .reject (wordOfBytes 0x02 hi) = .error (.invalidRegister hi))

/-- R67: of the 256 × 256 pairs of an operand byte and an opcode byte, 1152 decode under Ignore, 128 of them to
PopRegister, and 1032 under Reject, 8 of them to PopRegister; under both, 256 to each of the other four. -/
def Obligations.DecodableWordCounts : Prop :=
  let count (p : PopReserved) (pred : Instr → Bool) : Nat :=
    ((List.range 256).map fun hi => (List.range 256).countP fun lo =>
      match decode p (wordOfBytes (BitVec.ofNat 8 lo) (BitVec.ofNat 8 hi)) with
      | .ok i => pred i
      | .error _ => false).sum
  let isPop : Instr → Bool := fun i => match i with | .popRegister _ => true | _ => false
  let isPush : Instr → Bool := fun i => match i with | .push _ => true | _ => false
  let isSignal : Instr → Bool := fun i => match i with | .signal _ => true | _ => false
  count .ignore (fun _ => true) = 1152 ∧ count .ignore isPop = 128 ∧
    count .reject (fun _ => true) = 1032 ∧ count .reject isPop = 8 ∧
    ∀ p, count p (fun i => i == .nop) = 256 ∧ count p isPush = 256 ∧ count p (fun i => i == .addStack) = 256 ∧
      count p isSignal = 256

/-- R65, R97: AddRegister has no encoding, no word decodes to it, opcode 0x04 stays illegal, and no step executes it. -/
def Obligations.AddRegisterIsReachedByTheExecutePortOnly : Prop :=
  ∀ r1 r2, encode (.addRegister r1 r2) = none ∧ (∀ p w, decode p w ≠ .ok (.addRegister r1 r2)) ∧
    (∀ p w, lowByte w = 0x04 → decode p w = .error (.unknownOpcode 0x04)) ∧ ∀ s, fetched s ≠ some (.addRegister r1 r2)

/-- R68: the output bundle tells every two decode results apart, and the decoder never drives AddRegister's tag. -/
def Obligations.DecoderOutputIsFaithful : Prop :=
  (∀ x y : Except DecodeError Instr, decoderOutput x = decoderOutput y → x = y) ∧
    ∀ p w, (decoderOutput (decode p w)).tag ≠ 4

/-! ## Memory and the host's ports -/

/-- R38, R39, R40: the bounds tests of all four primitives never wrap and carry the base address; a two-byte read is
the formula of R38 and a two-byte write changes exactly its two bytes, low half at the lower address. -/
def Obligations.MemoryPrimitivesAreBoundedAndLittleEndian : Prop :=
  ∀ (m : Memory) (addr : Nat) (v : Word) (b : Byte),
    (m.capacity ≤ addr → m.read8 addr = .error (.memReadFault addr) ∧ m.write8 addr b = .error (.memWriteFault addr)) ∧
    (m.capacity ≤ addr + 1 →
      m.read16 addr = .error (.memReadFault addr) ∧ m.write16 addr v = .error (.memWriteFault addr)) ∧
    (addr + 1 < m.capacity →
      m.read16 addr = .ok ((m.byte addr).zeroExtend 16 ||| (m.byte (addr + 1)).zeroExtend 16 <<< 8) ∧
      ∃ m', m.write16 addr v = .ok m' ∧ m'.capacity = m.capacity ∧ (m'.byte addr).toNat = v.toNat % 256 ∧
        (m'.byte (addr + 1)).toNat = v.toNat / 256 ∧ ∀ a, a ≠ addr → a ≠ addr + 1 → m'.byte a = m.byte a) ∧
    (m.capacity ≤ 65536 → m.read16 0xFFFF = .error (.memReadFault 0xFFFF) ∧
      m.write16 0xFFFF v = .error (.memWriteFault 0xFFFF))

/-- R41: mixed widths. A two-byte write read byte by byte gives v[7:0] and v[15:8]; two single-byte writes read as a
pair give their two bytes; a single-byte write changes no other byte. -/
def Obligations.MixedWidthAccessesAgree : Prop :=
  ∀ (m : Memory) (addr : Nat), addr + 1 < m.capacity →
    (∀ v : Word, ∃ m', m.write16 addr v = .ok m' ∧ m'.read8 addr = .ok (v.extractLsb' 0 8) ∧
      m'.read8 (addr + 1) = .ok (v.extractLsb' 8 8) ∧ m'.read16 addr = .ok v) ∧
    ∀ lo hi : Byte, ∃ m1 m2, m.write8 addr lo = .ok m1 ∧ m1.write8 (addr + 1) hi = .ok m2 ∧
      m2.read16 addr = .ok (hi ++ lo) ∧ ∀ a, a ≠ addr → m1.byte a = m.byte a

/-- R44: bulk load. Beyond the capacity it fails and there is no new state; within it, the boundary included, the bytes
land in order and nothing else changes. -/
def Obligations.BulkLoadCopiesInOrderOrFails : Prop :=
  ∀ (s : State) (origin : Nat) (bytes : List Byte),
    (s.mem.capacity < origin + bytes.length →
      s.load origin bytes = .error (.loadOutOfBounds origin bytes.length)) ∧
    (origin + bytes.length ≤ s.mem.capacity →
      ∃ t, s.load origin bytes = .ok t ∧ (∀ i (h : i < bytes.length), t.mem.byte (origin + i) = bytes[i]) ∧
        (∀ a, a < origin ∨ origin + bytes.length ≤ a → t.mem.byte a = s.mem.byte a) ∧
        t.mem.capacity = s.mem.capacity ∧ (∀ r, t.reg r = s.reg r) ∧ t.halt = s.halt ∧ t.handlers = s.handlers ∧
        t.popReserved = s.popReserved)

/-- R102, R103: registration binds exactly that code, over any handler it had, leaves every other code and the rest of
the engine alone, and the Signal of that code then reaches that handler. -/
def Obligations.RegistrationOverwritesExactlyOneCode : Prop :=
  ∀ (s : State) (code : Byte) (h : Handler),
    HandlerTable.find (s.register code h).handlers code = some h ∧
      (∀ c, c ≠ code → HandlerTable.find (s.register code h).handlers c = HandlerTable.find s.handlers c) ∧
      exec (.signal code) (s.register code h) = finish (dispatch h.body (s.register code h)) ∧
      (s.register code h).regs = s.regs ∧ (s.register code h).mem = s.mem ∧ (s.register code h).halt = s.halt ∧
      (s.register code h).popReserved = s.popReserved

/-- R131: registering and loading may be in either order. -/
def Obligations.RegisterAndLoadCommute : Prop :=
  ∀ (s : State) (code : Byte) (h : Handler) (origin : Nat) (bytes : List Byte),
    (∀ t, s.load origin bytes = .ok t → (s.register code h).load origin bytes = .ok (t.register code h)) ∧
      ∀ e, s.load origin bytes = .error e → (s.register code h).load origin bytes = .error e

/-! ## The step -/

/-- R75, R77, R78, R80: the step is fetch, advance, decode and execute: a fetch out of bounds changes nothing, a decoder
failure changes PC only, and otherwise the step is `exec` of the decoded instruction on the advanced state. -/
def Obligations.StepRunsTheDecodedInstruction : Prop :=
  ∀ s : State,
    (s.mem.capacity ≤ (s.reg .PC).toNat + 1 → step s = .fault (.fetchFault (s.reg .PC) s)) ∧
    ((s.reg .PC).toNat + 1 < s.mem.capacity → ∃ w, s.mem.read16 (s.reg .PC).toNat = .ok w ∧
      (∀ o, decode s.popReserved w = .error (.unknownOpcode o) → step s = .fault (.unknownOpcode o (advance s))) ∧
      (∀ v, decode s.popReserved w = .error (.invalidRegister v) → step s = .fault (.invalidRegister v (advance s))) ∧
      ∀ i, decode s.popReserved w = .ok i → step s = exec i (advance s)) ∧
    advance s = { s with regs := { s.regs with pc := s.regs.pc + 2 } }

/-- R82: outside Signal, whose handler may look at it, a step does not depend on the halt flag and leaves it alone: with
halt changed it ends alike, a fault being the same kind with the same info value, and what it leaves differs in halt only. -/
def Obligations.StepDoesNotReadHalt : Prop :=
  ∀ (s : State) (b : Bool), (∀ code, fetched s ≠ some (.signal code)) →
    (∀ t, step s = .next t → step { s with halt := b } = .next { t with halt := b } ∧ t.halt = s.halt) ∧
      ∀ f, step s = .fault f →
        step { s with halt := b } = .fault (f.withLeft { f.left with halt := b }) ∧ f.left.halt = s.halt

/-- R83: a step that ends Ok leaves PC at the advanced value unless it is PopRegister PC or a Signal, whose handler may
write it; PopRegister PC goes to the popped word. -/
def Obligations.PcChangesOnlyByAdvanceOrTransfer : Prop :=
  (∀ s t, step s = .next t → t.reg .PC ≠ s.reg .PC + 2 →
    fetched s = some (.popRegister .PC) ∨ ∃ code, fetched s = some (.signal code)) ∧
  ∀ s t, fetched s = some (.popRegister .PC) → step s = .next t →
    s.mem.read16 ((s.reg .SP).toNat - 2) = .ok (t.reg .PC)

/-- R24, R25: the cells A, B, C, M, BP and FLAGS change only by a PopRegister or AddRegister that names them as its
destination, and by handlers; no operation sets FLAGS as a side effect. -/
def Obligations.OrdinaryCellsHaveNoOtherWriter : Prop :=
  ∀ i s t r, r ≠ .SP → r ≠ .PC → exec i s = .next t → t.reg r ≠ s.reg r →
    i = .popRegister r ∨ (∃ q, i = .addRegister r q) ∨ ∃ code, i = .signal code

/-- R50: a Push that lands on its own instruction still runs as that Push, and the next fetch at that address reads
what was pushed. -/
def Obligations.PushOverItsOwnWordIsSeenByTheNextFetchOnly : Prop :=
  ∀ (s : State) (imm : Byte), fetched s = some (.push imm) → s.reg .SP = s.reg .PC →
    ∃ t, step s = .next t ∧ t.reg .SP = s.reg .SP + 2 ∧ t.reg .PC = s.reg .PC + 2 ∧
      ∀ back : State, back.mem = t.mem → back.reg .PC = s.reg .PC → fetch back = .ok (imm.zeroExtend 16)

/-- R132: over bytes that are all zero, within the capacity and below the wrap of PC, k steps are k Nops: PC moves by
2k and nothing else changes. -/
def Obligations.ZeroBytesAreASlideOfNops : Prop :=
  ∀ (k : Nat) (s : State), (s.reg .PC).toNat + 2 * k ≤ s.mem.capacity → (s.reg .PC).toNat + 2 * k < 65536 →
    (∀ a, (s.reg .PC).toNat ≤ a → a < (s.reg .PC).toNat + 2 * k → s.mem.byte a = 0) →
    Host.Core.run Sys2Proof.core k s = .next (s.setReg .PC (BitVec.ofNat 16 ((s.reg .PC).toNat + 2 * k)))

/-- R87: the finite-state machine, from READY, reaches DONE within six arrows with the result and the state of the step,
and then is READY again on that state. -/
def Obligations.StateMachineAgreesWithStep : Prop :=
  ∀ s : State, ∃ n, n ≤ 6 ∧ phaseRun n (.ready, s) = (.done (transaction s).2, (transaction s).1) ∧
    phaseRun (n + 1) (.ready, s) = (.ready, (transaction s).1)

/-- R86: the run loop of n steps is still running exactly on the state that n Ok steps with halt false after each lead
to; it is Halted exactly where, after fewer than n of those, a step ends Ok with halt set, on the state that step leaves;
and Faulted exactly where such a step fails, with its fault. A run that has ended stays ended the same way however many
more steps are allowed, and no run is refused. -/
def Obligations.RunsEndHaltedOrFaultedForGood : Prop :=
  (∀ n s t, runLoop n s = .running t ↔ LoopsTo n s t) ∧
    (∀ n s t, runLoop n s = .halted t ↔ ∃ k u, k < n ∧ LoopsTo k s u ∧ step u = .next t ∧ t.halt = true) ∧
    (∀ n s f, runLoop n s = .faulted f ↔ ∃ k u, k < n ∧ LoopsTo k s u ∧ step u = .fault f) ∧
  (∀ n k s t, runLoop n s = .halted t → runLoop (n + k) s = .halted t ∧ t.halt = true ∧ Steps s t) ∧
    (∀ n k s f, runLoop n s = .faulted f → runLoop (n + k) s = .faulted f ∧ ∃ u, Steps s u ∧ step u = .fault f) ∧
    (∀ n s t, runLoop n s = .running t → Steps s t ∧ (n ≠ 0 → t.halt = false)) ∧ ∀ n s r, runLoop n s ≠ .refused r

/-- R136, with the premise N ≤ 65535 that rules out a wrap of PC, which the rule's text does not name: while no step
writes PC or SP but by the advance and the stack primitives, SP ≤ PC is kept, and what is not a Signal writes no byte
above the instruction being executed. -/
def Obligations.StraightLineCodeIsNotOverwrittenAhead : Prop :=
  (∀ s t : State, s.mem.capacity ≤ 65535 → StraightLine s → (s.reg .SP).toNat ≤ (s.reg .PC).toNat → step s = .next t →
    (t.reg .SP).toNat ≤ (t.reg .PC).toNat ∧
      ((∀ code, fetched s ≠ some (.signal code)) →
        ∀ a, (s.reg .PC).toNat + 1 < a → t.mem.byte a = s.mem.byte a)) ∧
    ∀ n p, ((State.construct n p).reg .SP).toNat ≤ ((State.construct n p).reg .PC).toNat

/-! ## The stack primitives -/

/-- R88: Push16. -/
def Obligations.Push16WritesThenMovesSp : Prop :=
  ∀ (v : Word) (s : State),
    (s.mem.capacity ≤ (s.reg .SP).toNat + 1 → push16 v s = .error (.memWriteFault (s.reg .SP) s)) ∧
    ((s.reg .SP).toNat + 1 < s.mem.capacity →
      ∃ t, push16 v s = .ok t ∧ (t.reg .SP).toNat = ((s.reg .SP).toNat + 2) % 65536 ∧
        (t.mem.byte (s.reg .SP).toNat).toNat = v.toNat % 256 ∧
        (t.mem.byte ((s.reg .SP).toNat + 1)).toNat = v.toNat / 256 ∧
        (∀ a, a ≠ (s.reg .SP).toNat → a ≠ (s.reg .SP).toNat + 1 → t.mem.byte a = s.mem.byte a) ∧
        (∀ r, r ≠ .SP → t.reg r = s.reg r) ∧ t.halt = s.halt ∧ t.handlers = s.handlers ∧
        t.popReserved = s.popReserved ∧ t.mem.capacity = s.mem.capacity ∧
        ((t.reg .SP).toNat ≠ (s.reg .SP).toNat + 2 → 65536 ≤ s.mem.capacity ∧ 0xFFFE ≤ (s.reg .SP).toNat))

/-- R89: Pop16. -/
def Obligations.Pop16ChecksThenReads : Prop :=
  ∀ s : State,
    ((s.reg .SP).toNat < 2 → pop16 s = .error (.stackUnderflow (s.reg .SP) s)) ∧
    (2 ≤ (s.reg .SP).toNat → s.mem.capacity < (s.reg .SP).toNat →
      ∃ a : Word, a.toNat = (s.reg .SP).toNat - 2 ∧ pop16 s = .error (.memReadFault a s)) ∧
    (2 ≤ (s.reg .SP).toNat → (s.reg .SP).toNat ≤ s.mem.capacity →
      ∃ v t, pop16 s = .ok (v, t) ∧ s.mem.read16 ((s.reg .SP).toNat - 2) = .ok v ∧
        (t.reg .SP).toNat = (s.reg .SP).toNat - 2 ∧ t = s.setReg .SP (t.reg .SP))

/-- R94: the push-pop law, its corner, and the clean failure of a pop with sp < 2. -/
def Obligations.PushThenPopGivesTheValueBack : Prop :=
  (∀ (v : Word) (s : State), (s.reg .SP).toNat + 1 < s.mem.capacity → (s.reg .SP).toNat ≤ 0xFFFD →
    ∃ t u, push16 v s = .ok t ∧ pop16 t = .ok (v, u) ∧ u.reg .SP = s.reg .SP) ∧
  (∀ (v : Word) (s : State), 65536 ≤ s.mem.capacity → s.reg .SP = 0xFFFE →
    ∃ t, push16 v s = .ok t ∧ t.reg .SP = 0 ∧ pop16 t = .error (.stackUnderflow 0 t)) ∧
  ∀ s : State, (s.reg .SP).toNat < 2 → ∃ f, pop16 s = .error f ∧ f.left = s

/-! ## The operations: results and completion -/

/-- R90: Nop has no effect and completes in every state; a step that fetches it only advances PC. -/
def Obligations.NopOnlyAdvances : Prop :=
  (∀ s, exec .nop s = .next s) ∧
    ∀ s, fetched s = some .nop → step s = .next { s with regs := { s.regs with pc := s.regs.pc + 2 } }

/-- R91: Push completes exactly when its slot is within memory; the word pushed is the immediate with a zero high byte. -/
def Obligations.PushStoresTheZeroExtendedImmediate : Prop :=
  ∀ (imm : Byte) (s : State),
    ((s.reg .SP).toNat + 1 < s.mem.capacity →
      ∃ t, exec (.push imm) s = .next t ∧ t.reg .SP = s.reg .SP + 2 ∧ t.mem.byte (s.reg .SP).toNat = imm ∧
        t.mem.byte ((s.reg .SP).toNat + 1) = 0) ∧
    (s.mem.capacity ≤ (s.reg .SP).toNat + 1 → exec (.push imm) s = .fault (.memWriteFault (s.reg .SP) s))

/-- R92: PopRegister completes exactly when 2 ≤ sp ≤ N. The decrement comes first, so with r = SP the popped value
stays; with r = PC it is the target of a transfer; memory is unchanged. -/
def Obligations.PopRegisterStoresThePoppedWord : Prop :=
  ∀ (r : Reg) (s : State),
    (2 ≤ (s.reg .SP).toNat → (s.reg .SP).toNat ≤ s.mem.capacity →
      ∃ v t, s.mem.read16 ((s.reg .SP).toNat - 2) = .ok v ∧ exec (.popRegister r) s = .next t ∧ t.reg r = v ∧
        (r ≠ .SP → t.reg .SP = s.reg .SP - 2) ∧ t.mem = s.mem) ∧
    ((s.reg .SP).toNat < 2 → exec (.popRegister r) s = .fault (.stackUnderflow (s.reg .SP) s)) ∧
    (2 ≤ (s.reg .SP).toNat → s.mem.capacity < (s.reg .SP).toNat →
      exec (.popRegister r) s = .fault (.memReadFault (s.reg .SP - 2) s))

/-- R95: the four cases of AddStack by sp, and the two failure rows that cannot occur. -/
def Obligations.AddStackOutcomesBySp : Prop :=
  (∀ s : State,
    ((s.reg .SP).toNat < 2 → exec .addStack s = .fault (.stackUnderflow (s.reg .SP) s)) ∧
    (2 ≤ (s.reg .SP).toNat → s.mem.capacity < (s.reg .SP).toNat →
      exec .addStack s = .fault (.memReadFault (s.reg .SP - 2) s)) ∧
    ((s.reg .SP).toNat = 2 ∨ (s.reg .SP).toNat = 3 → (s.reg .SP).toNat ≤ s.mem.capacity →
      exec .addStack s = .fault (.stackUnderflow (s.reg .SP - 2) (s.setReg .SP (s.reg .SP - 2)))) ∧
    (4 ≤ (s.reg .SP).toNat → (s.reg .SP).toNat ≤ s.mem.capacity →
      ∃ a b t, s.mem.read16 ((s.reg .SP).toNat - 2) = .ok a ∧ s.mem.read16 ((s.reg .SP).toNat - 4) = .ok b ∧
        exec .addStack s = .next t ∧ t.reg .SP = s.reg .SP - 2 ∧
        (t.mem.byte ((s.reg .SP).toNat - 4)).toNat = (a.toNat + b.toNat) % 65536 % 256 ∧
        (t.mem.byte ((s.reg .SP).toNat - 3)).toNat = (a.toNat + b.toNat) % 65536 / 256)) ∧
  ∀ s a s1, pop16 s = .ok (a, s1) → (∀ addr l, pop16 s1 ≠ .error (.memReadFault addr l)) ∧
    ∀ b s2, pop16 s1 = .ok (b, s2) → ∀ v, ∃ t, push16 v s2 = .ok t

/-- R96: AddRegister completes for every two registers in every state: the sum modulo 65536 in r1, and nothing else
changes; it has no encoding and no word decodes to it. -/
def Obligations.AddRegisterAddsModulo65536 : Prop :=
  ∀ (r1 r2 : Reg) (s : State),
    (∃ t, exec (.addRegister r1 r2) s = .next t ∧
      (t.reg r1).toNat = ((s.reg r1).toNat + (s.reg r2).toNat) % 65536 ∧ (∀ q, q ≠ r1 → t.reg q = s.reg q) ∧
      t.mem = s.mem ∧ t.halt = s.halt ∧ t.handlers = s.handlers ∧ t.popReserved = s.popReserved) ∧
    encode (.addRegister r1 r2) = none ∧ ∀ p w, decode p w ≠ .ok (.addRegister r1 r2)

/-- R98: Signal with a bound code completes exactly when its handler succeeds: registers and memory are the handler's,
halt is OR-ed. An unbound code fails with nothing changed, and a handler's failure keeps its writes. -/
def Obligations.SignalRunsTheBoundHandler : Prop :=
  ∀ (code : Byte) (s : State),
    (HandlerTable.find s.handlers code = none → exec (.signal code) s = .fault (.unknownSignal code s)) ∧
    ∀ h v out, HandlerTable.find s.handlers code = some h → h.body ⟨s.regs, s.mem, s.halt⟩ = (v, out) →
      (out = .ok →
        exec (.signal code) s = .next { s with regs := v.regs, mem := v.mem, halt := s.halt || v.halt }) ∧
      ∀ e, out = .err e →
        exec (.signal code) s =
          .fault (.handlerFailure e { s with regs := v.regs, mem := v.mem, halt := s.halt || v.halt })

/-- R100, R101: for every handler function, halt is OR-ed in, so a handler can set it and cannot clear it; its failure
is passed on unchanged, and its registers, memory and halt are kept when it fails. -/
def Obligations.AnyHandlerIsMergedAndItsFailureKeepsItsWrites : Prop :=
  ∀ (h : View → View × HandlerOutcome) (s : State), ∃ t,
    ((h s.view).2 = .ok → dispatch h s = .ok t) ∧
    (∀ e, (h s.view).2 = .err e → dispatch h s = .error (.handlerFailure e t)) ∧
    (∀ r, t.reg r = (h s.view).1.regs.get r) ∧ t.mem = (h s.view).1.mem ∧ t.halt = (s.halt || (h s.view).1.halt) ∧
    (s.halt = true → t.halt = true) ∧ ((h s.view).1.halt = true → t.halt = true) ∧ t.handlers = s.handlers ∧
    t.popReserved = s.popReserved

/-- R106: the reference halt handler sets halt and changes nothing else; the reference driver binds it to 0xF0; the
Signal of a code bound to it completes in every state, and the run loop then stops. -/
def Obligations.HaltHandlerOnlySetsHalt : Prop :=
  (∀ v : View, Handler.halt.body v = ({ v with halt := true }, .ok)) ∧
    (∀ image s, driverBoot image = .ok s → HandlerTable.find s.handlers 0xF0 = some .halt) ∧
    (∀ p, decodeBytes p 0xF0 0xF0 = .ok (.signal 0xF0)) ∧
    ∀ (s : State) (code : Byte), HandlerTable.find s.handlers code = some .halt →
      exec (.signal code) s = .next { s with halt := true } ∧
        (fetched s = some (.signal code) → ∀ n, runLoop (n + 1) s = .halted { advance s with halt := true })

/-- R121, R137: the handler of a Signal step sees PC already advanced and everything else as the step found it. -/
def Obligations.HandlerSeesTheAdvancedPc : Prop :=
  ∀ (s : State) (code : Byte) (h : Handler), fetched s = some (.signal code) →
    HandlerTable.find s.handlers code = some h → ∃ v : View,
      step s = finish (trapReturn (advance s) (h.body v)) ∧ v.regs.get .PC = s.reg .PC + 2 ∧
        (∀ r, r ≠ .PC → v.regs.get r = s.reg r) ∧ v.mem = s.mem ∧ v.halt = s.halt

/-- R99, log 4: the form in which a host callback answers loses nothing: any memory of the same capacity is left by
some list of writes, with any registers and any halt flag; and none of it changes the capacity. -/
def Obligations.HostRepliesReachEveryView : Prop :=
  (∀ (v u : View) (out : HandlerOutcome), v.mem.wf → u.mem.wf → u.mem.capacity = v.mem.capacity →
    ∃ stores, v.reply ⟨u.regs, stores, u.halt, out⟩ = u) ∧
  ∀ (v : View) (r : HandlerReply), (v.reply r).mem.capacity = v.mem.capacity ∧ (v.reply r).regs = r.regs ∧
    (v.reply r).halt = r.halt

/-! ## Frames -/

/-- What Nop, PopRegister and AddRegister leave unchanged: every byte of memory, every register but SP and r for
PopRegister and r1 for AddRegister, and all the rest of the engine. -/
def Obligations.NonStoringOperationsFrame : Prop :=
  (∀ i s t, (i = .nop ∨ (∃ r, i = .popRegister r) ∨ ∃ r1 r2, i = .addRegister r1 r2) → exec i s = .next t →
    (∀ a, t.mem.byte a = s.mem.byte a) ∧ t.mem.capacity = s.mem.capacity ∧ t.halt = s.halt ∧
      t.handlers = s.handlers ∧ t.popReserved = s.popReserved) ∧
  (∀ s t, exec .nop s = .next t → ∀ q, t.reg q = s.reg q) ∧
  (∀ r s t, exec (.popRegister r) s = .next t → ∀ q, q ≠ .SP → q ≠ r → t.reg q = s.reg q) ∧
  ∀ r1 r2 s t, exec (.addRegister r1 r2) s = .next t → ∀ q, q ≠ r1 → t.reg q = s.reg q

/-- What Push and AddStack leave unchanged: every register but SP, every byte outside the two they store, whose address
is `pushAddr` of the state they push on (for AddStack, after both pops), and all the rest of the engine. -/
def Obligations.StoringOperationsFrame : Prop :=
  (∀ i s t, ((∃ imm, i = .push imm) ∨ i = .addStack) → exec i s = .next t →
    (∀ q, q ≠ .SP → t.reg q = s.reg q) ∧ t.mem.capacity = s.mem.capacity ∧ t.halt = s.halt ∧
      t.handlers = s.handlers ∧ t.popReserved = s.popReserved) ∧
  (∀ imm s t, exec (.push imm) s = .next t → ∀ a, a ≠ pushAddr s → a ≠ pushAddr s + 1 →
    t.mem.byte a = s.mem.byte a) ∧
  ∀ s t, exec .addStack s = .next t → ∃ x s1 y s2, pop16 s = .ok (x, s1) ∧ pop16 s1 = .ok (y, s2) ∧
    pushAddr s2 = (s.reg .SP).toNat - 4 ∧ ∀ a, a ≠ pushAddr s2 → a ≠ pushAddr s2 + 1 → t.mem.byte a = s.mem.byte a

/-! ## Faults -/

/-- R110: FetchFault is raised exactly when the word at pc is out of bounds, carries pc, and leaves every piece of state
unchanged; such a fetch never gives MemReadFault. -/
def Obligations.FetchFaultChangesNothing : Prop :=
  ∀ s : State,
    (s.mem.capacity ≤ (s.reg .PC).toNat + 1 → step s = .fault (.fetchFault (s.reg .PC) s)) ∧
      ∀ p l, step s = .fault (.fetchFault p l) → s.mem.capacity ≤ (s.reg .PC).toNat + 1 ∧ p = s.reg .PC ∧ l = s

/-- R111: UnknownOpcode is raised exactly for the opcodes with no defined case, carries the opcode byte, and leaves all
state unchanged except the PC advance. -/
def Obligations.UnknownOpcodeOnlyAdvances : Prop :=
  (∀ s w, fetch s = .ok w → lowByte w ∉ [0x00, 0x01, 0x02, 0x03, 0xF0] →
    step s = .fault (.unknownOpcode (lowByte w) { s with regs := { s.regs with pc := s.regs.pc + 2 } })) ∧
  ∀ s o l, step s = .fault (.unknownOpcode o l) →
    ∃ w, fetch s = .ok w ∧ o = lowByte w ∧ lowByte w ∉ [0x00, 0x01, 0x02, 0x03, 0xF0]

/-- R112: InvalidRegister is raised exactly for opcode 0x02 with a field that names no register; it carries idx under
Ignore and the whole operand byte under Reject, and leaves all state unchanged except the PC advance. -/
def Obligations.InvalidRegisterOnlyAdvances : Prop :=
  (∀ s w, fetch s = .ok w → lowByte w = 0x02 →
    (s.popReserved = .ignore → 8 ≤ (highByte w).toNat % 16 → ∃ v : Byte, v.toNat = (highByte w).toNat % 16 ∧
      step s = .fault (.invalidRegister v { s with regs := { s.regs with pc := s.regs.pc + 2 } })) ∧
    (s.popReserved = .reject → 8 ≤ (highByte w).toNat →
      step s = .fault (.invalidRegister (highByte w) { s with regs := { s.regs with pc := s.regs.pc + 2 } }))) ∧
  ∀ s v l, step s = .fault (.invalidRegister v l) → ∃ w, fetch s = .ok w ∧ lowByte w = 0x02 ∧
    (s.popReserved = .ignore → 8 ≤ (highByte w).toNat % 16) ∧ (s.popReserved = .reject → 8 ≤ (highByte w).toNat)

/-- R113: a step raises MemReadFault exactly when it executes PopRegister or AddStack with 2 ≤ sp and sp > N; it carries
sp - 2 and leaves all state unchanged except the PC advance; a fetch out of bounds raises FetchFault instead. -/
def Obligations.MemReadFaultComesFromTheFirstPop : Prop :=
  (∀ s : State, (∃ r, fetched s = some (.popRegister r)) ∨ fetched s = some .addStack → 2 ≤ (s.reg .SP).toNat →
    s.mem.capacity < (s.reg .SP).toNat →
    step s = .fault (.memReadFault (s.reg .SP - 2) { s with regs := { s.regs with pc := s.regs.pc + 2 } })) ∧
  (∀ s a l, step s = .fault (.memReadFault a l) →
    ((∃ r, fetched s = some (.popRegister r)) ∨ fetched s = some .addStack) ∧ 2 ≤ (s.reg .SP).toNat ∧
      s.mem.capacity < (s.reg .SP).toNat ∧ a = s.reg .SP - 2) ∧
  ∀ s, s.mem.capacity ≤ (s.reg .PC).toNat + 1 → step s = .fault (.fetchFault (s.reg .PC) s)

/-- R114: a step raises MemWriteFault exactly when it executes Push with sp + 1 ≥ N; it carries sp and leaves all state
unchanged except the PC advance. -/
def Obligations.MemWriteFaultComesFromPushOnly : Prop :=
  (∀ s imm, fetched s = some (.push imm) → s.mem.capacity ≤ (s.reg .SP).toNat + 1 →
    step s = .fault (.memWriteFault (s.reg .SP) { s with regs := { s.regs with pc := s.regs.pc + 2 } })) ∧
  ∀ s a l, step s = .fault (.memWriteFault a l) →
    (∃ imm, fetched s = some (.push imm)) ∧ s.mem.capacity ≤ (s.reg .SP).toNat + 1 ∧ a = s.reg .SP

/-- R115: StackUnderflow. The faulting Pop16 changes nothing; within AddStack, one from the second pop leaves the first
pop's decrement in place. -/
def Obligations.StackUnderflowBeforeAnyArithmetic : Prop :=
  (∀ s : State, (s.reg .SP).toNat < 2 → pop16 s = .error (.stackUnderflow (s.reg .SP) s)) ∧
  (∀ s : State, (∃ r, fetched s = some (.popRegister r)) ∨ fetched s = some .addStack → (s.reg .SP).toNat < 2 →
    step s = .fault (.stackUnderflow (s.reg .SP) { s with regs := { s.regs with pc := s.regs.pc + 2 } })) ∧
  (∀ s : State, fetched s = some .addStack → (s.reg .SP).toNat = 2 ∨ (s.reg .SP).toNat = 3 →
    (s.reg .SP).toNat ≤ s.mem.capacity → step s = .fault (.stackUnderflow (s.reg .SP - 2)
      { s with regs := { s.regs with pc := s.regs.pc + 2, sp := s.regs.sp - 2 } })) ∧
  ∀ s v l, step s = .fault (.stackUnderflow v l) →
    (∃ r, fetched s = some (.popRegister r)) ∧ (s.reg .SP).toNat < 2 ∨ fetched s = some .addStack ∧ (s.reg .SP).toNat < 4

/-- R116, R117: a step raises UnknownSignal exactly for a Signal whose code is unbound, with only the PC advance; and
HandlerFailure exactly when the bound handler fails, with its payload, the PC advance and whatever it wrote. -/
def Obligations.SignalFaultsByLookupAndByHandler : Prop :=
  (∀ s code, fetched s = some (.signal code) → HandlerTable.find s.handlers code = none →
    step s = .fault (.unknownSignal code { s with regs := { s.regs with pc := s.regs.pc + 2 } })) ∧
  (∀ s code l, step s = .fault (.unknownSignal code l) →
    fetched s = some (.signal code) ∧ HandlerTable.find s.handlers code = none) ∧
  (∀ s code h v e, fetched s = some (.signal code) → HandlerTable.find s.handlers code = some h →
    h.body (advance s).view = (v, .err e) → step s = .fault (.handlerFailure e
      { s with regs := v.regs, mem := v.mem, halt := s.halt || v.halt })) ∧
  ∀ s e l, step s = .fault (.handlerFailure e l) → ∃ code h v, fetched s = some (.signal code) ∧
    HandlerTable.find s.handlers code = some h ∧ h.body (advance s).view = (v, .err e)

/-- R118: what a failed step leaves. The handler table, the policy and the capacity are unchanged. Registers other than PC are unchanged but in the third row of R95 and where a
handler failed; memory and halt are unchanged but where a handler failed; PC is unchanged by FetchFault and otherwise
advanced by 2 unless a handler wrote it. HandlerFailure carries the payload of the handler that failed and leaves the
advanced state with that handler's registers and memory, and halt OR-ed (R100, R101). -/
def Obligations.FaultsArePrecise : Prop :=
  ∀ s f, step s = .fault f →
    (f.left.handlers = s.handlers ∧ f.left.popReserved = s.popReserved ∧ f.left.mem.capacity = s.mem.capacity) ∧
    ((∀ r, r ≠ .PC → f.left.reg r = s.reg r) ∨
      (fetched s = some .addStack ∧ ((s.reg .SP).toNat = 2 ∨ (s.reg .SP).toNat = 3) ∧
        f = .stackUnderflow (s.reg .SP - 2) f.left ∧ f.left.reg .SP = s.reg .SP - 2 ∧
        ∀ r, r ≠ .PC → r ≠ .SP → f.left.reg r = s.reg r) ∨ f.code = 8) ∧
    (f.code ≠ 8 → f.left.mem = s.mem ∧ f.left.halt = s.halt) ∧
    (f.code = 1 → f.left.reg .PC = s.reg .PC) ∧
    (f.code ≠ 1 → f.code ≠ 8 → f.left.reg .PC = s.reg .PC + 2) ∧
    (f.code = 8 → ∃ code h v e, fetched s = some (.signal code) ∧ HandlerTable.find s.handlers code = some h ∧
      h.body (advance s).view = (v, .err e) ∧
      f = .handlerFailure e { s with regs := v.regs, mem := v.mem, halt := s.halt || v.halt })

/-- R109's numeric codes: a step's status is 0 exactly when it ends Ok; the eight fault kinds are 1 to 8 in the table's
order; the memory port fails with the codes of the memory faults, and the bulk load with 9. -/
def Obligations.StatusCodesFollowTheTable : Prop :=
  (∀ s, (transaction s).2.code = some 0 ↔ ∃ t, step s = .next t) ∧
    (∀ s f, step s = .fault f → (transaction s).2.code = some f.code) ∧
    (∀ (pc a sp : Word) (o v c : Byte) (e : HandlerError) (l : State),
      (Fault.fetchFault pc l).code = 1 ∧ (Fault.unknownOpcode o l).code = 2 ∧ (Fault.invalidRegister v l).code = 3 ∧
      (Fault.memReadFault a l).code = 4 ∧ (Fault.memWriteFault a l).code = 5 ∧ (Fault.stackUnderflow sp l).code = 6 ∧
      (Fault.unknownSignal c l).code = 7 ∧ (Fault.handlerFailure e l).code = 8) ∧
    ∀ addr origin len, (PortError.memReadFault addr).code = 4 ∧ (PortError.memWriteFault addr).code = 5 ∧
      (PortError.loadOutOfBounds origin len).code = 9

/-- The model's choice (log entry 1, DESIGN CHOICE): of the constructions, the one that is the fixed reset state is that
at the reference values of R6, 8192 bytes and Ignore. -/
def Obligations.ResetIsTheReferenceConstruction : Prop :=
  State.reset = State.construct 8192 .ignore
end

