-- ==== Sys2Proof/Laws/State.lean ====
section
/-! SUPPORT. Small lemmas about registers and state updates: one per field per update. -/

namespace Sys2Proof.Machine

/-! ## The register file -/

@[simp] theorem regs_get_set_same (x : RegFile) (r : Reg) (v : Word) : (x.set r v).get r = v := by
  cases r <;> rfl

theorem regs_get_set (x : RegFile) (r q : Reg) (v : Word) :
    (x.set r v).get q = if q = r then v else x.get q := by
  cases r <;> cases q <;> rfl

@[simp] theorem regs_get_set_ne (x : RegFile) (r q : Reg) (v : Word) (h : q ≠ r) :
    (x.set r v).get q = x.get q := by
  rw [regs_get_set, if_neg h]

theorem regs_ext (x y : RegFile) (h : ∀ r, x.get r = y.get r) : x = y := by
  have := h .A; have := h .B; have := h .C; have := h .M
  have := h .SP; have := h .PC; have := h .BP; have := h .FLAGS
  cases x; cases y; simp_all [RegFile.get]

/-! ## `State.setReg` -/

@[simp] theorem reg_setReg_same (s : State) (r : Reg) (v : Word) : (s.setReg r v).reg r = v :=
  regs_get_set_same ..

theorem reg_setReg (s : State) (r q : Reg) (v : Word) :
    (s.setReg r v).reg q = if q = r then v else s.reg q := regs_get_set ..

@[simp] theorem reg_setReg_ne (s : State) (r q : Reg) (v : Word) (h : q ≠ r) :
    (s.setReg r v).reg q = s.reg q := regs_get_set_ne _ _ _ _ h

@[simp] theorem setReg_mem (s : State) (r : Reg) (v : Word) : (s.setReg r v).mem = s.mem := rfl
@[simp] theorem setReg_halt (s : State) (r : Reg) (v : Word) : (s.setReg r v).halt = s.halt := rfl
@[simp] theorem setReg_handlers (s : State) (r : Reg) (v : Word) : (s.setReg r v).handlers = s.handlers := rfl
@[simp] theorem setReg_popReserved (s : State) (r : Reg) (v : Word) :
    (s.setReg r v).popReserved = s.popReserved := rfl

/-! ## `{ s with mem := m }` -/

@[simp] theorem withMem_reg (s : State) (m : Memory) (r : Reg) : ({ s with mem := m } : State).reg r = s.reg r := rfl

/-! ## `advance` (R76) -/

@[simp] theorem advance_pc (s : State) : (advance s).reg .PC = add16 (s.reg .PC) 2 := reg_setReg_same ..
@[simp] theorem advance_reg_ne (s : State) (r : Reg) (h : r ≠ .PC) : (advance s).reg r = s.reg r :=
  reg_setReg_ne _ _ _ _ h
@[simp] theorem advance_mem (s : State) : (advance s).mem = s.mem := rfl
@[simp] theorem advance_halt (s : State) : (advance s).halt = s.halt := rfl
@[simp] theorem advance_handlers (s : State) : (advance s).handlers = s.handlers := rfl
@[simp] theorem advance_popReserved (s : State) : (advance s).popReserved = s.popReserved := rfl

/-! ## `State.merge` and `State.view` (R98, R99) -/

@[simp] theorem merge_reg (s : State) (v : View) (r : Reg) : (s.merge v).reg r = v.regs.get r := rfl
@[simp] theorem merge_mem (s : State) (v : View) : (s.merge v).mem = v.mem := rfl
@[simp] theorem merge_halt (s : State) (v : View) : (s.merge v).halt = (s.halt || v.halt) := rfl
@[simp] theorem merge_handlers (s : State) (v : View) : (s.merge v).handlers = s.handlers := rfl
@[simp] theorem merge_popReserved (s : State) (v : View) : (s.merge v).popReserved = s.popReserved := rfl
@[simp] theorem view_mem (s : State) : s.view.mem = s.mem := rfl
@[simp] theorem view_regs (s : State) : s.view.regs = s.regs := rfl
@[simp] theorem view_halt (s : State) : s.view.halt = s.halt := rfl

/-! ## `Fault.withLeft` (R109, R118) -/

@[simp] theorem left_withLeft (f : Fault) (t : State) : (f.withLeft t).left = t := by cases f <;> rfl
@[simp] theorem code_withLeft (f : Fault) (t : State) : (f.withLeft t).code = f.code := by cases f <;> rfl
@[simp] theorem withLeft_self (f : Fault) : f.withLeft f.left = f := by cases f <;> rfl

/-! ## `finish` -/

@[simp] theorem finish_ok (s : State) : finish (.ok s) = .next s := rfl
@[simp] theorem finish_error (f : Fault) : finish (.error f) = .fault f := rfl

theorem finish_eq_next (x : Except Fault State) (t : State) : finish x = .next t ↔ x = .ok t := by
  cases x <;> simp [finish]

theorem finish_eq_fault (x : Except Fault State) (f : Fault) : finish x = .fault f ↔ x = .error f := by
  cases x <;> simp [finish]

theorem finish_ne_refused (x : Except Fault State) (r : Refusal) : finish x ≠ .refused r := by
  cases x <;> simp [finish]

/-! ## The decoder's fields (R53, R54) -/

theorem wordOfBytes_getLsbD (lo hi : Byte) (i : Nat) :
    (wordOfBytes lo hi).getLsbD i = if i < 8 then lo.getLsbD i else hi.getLsbD (i - 8) :=
  (BitVec.getLsbD_append (x := hi) (y := lo) (i := i)).trans (by simp)

@[simp] theorem lowByte_wordOfBytes (lo hi : Byte) : lowByte (wordOfBytes lo hi) = lo := by
  refine BitVec.eq_of_getLsbD_eq fun i h => ?_
  simp [lowByte, wordOfBytes_getLsbD, h]

@[simp] theorem highByte_wordOfBytes (lo hi : Byte) : highByte (wordOfBytes lo hi) = hi := by
  refine BitVec.eq_of_getLsbD_eq fun i h => ?_
  simp [highByte, wordOfBytes_getLsbD, h]

@[simp] theorem wordOfBytes_low_high (w : Word) : wordOfBytes (lowByte w) (highByte w) = w := by
  simp only [lowByte, highByte, wordOfBytes]; ext i hi'
  simp only [BitVec.getElem_append, BitVec.getElem_extractLsb']
  split
  · simp [BitVec.getLsbD_eq_getElem hi']
  · rw [show 8 + (i - 8) = i by omega, BitVec.getLsbD_eq_getElem hi']

theorem regOfIndex_indexOf (r : Reg) : regOfIndex (indexOf r) = some r := by cases r <;> rfl

theorem indexOf_of_regOfIndex (i : BitVec 4) (r : Reg) (h : regOfIndex i = some r) : indexOf r = i := by
  revert i; cases r <;> decide

/-- An index names a register exactly when it is below 8 (R56). -/
theorem regOfIndex_isSome (i : BitVec 4) : (regOfIndex i).isSome = decide (i.toNat < 8) := by
  revert i; decide

end Sys2Proof.Machine
end

