-- ==== Sys2Proof/Laws/Memory.lean ====
section
/-! SUPPORT. Memory: read after write, frames, the canonical form and its extensionality, and one lemma per primitive
saying everything it can do. -/

namespace Sys2Proof.Machine

/-! ## Cell lists -/

theorem cellAt_of_not_mem (cells : List Host.Cell) (a : Nat) (h : ∀ c ∈ cells, c.1 ≠ a) : cellAt cells a = 0 := by
  induction cells with
  | nil => rfl
  | cons c rest ih =>
    obtain ⟨k, b⟩ := c
    rw [cellAt, if_neg (h (k, b) (by simp))]
    exact ih fun c hc => h c (by simp [hc])

theorem cellAt_eraseCell (cells : List Host.Cell) (a b : Nat) :
    cellAt (eraseCell cells a) b = if b = a then 0 else cellAt cells b := by
  induction cells with
  | nil => simp [eraseCell, cellAt]
  | cons c rest ih =>
    obtain ⟨k, v⟩ := c
    by_cases hk : k = a
    · subst hk
      simp only [eraseCell, List.filter_cons, ne_eq, not_true_eq_false, decide_false] at ih ⊢
      simp only [Bool.false_eq_true, if_false, ih, cellAt]
      grind
    · simp only [eraseCell, List.filter_cons, ne_eq, hk, not_false_eq_true, decide_true, if_true] at ih ⊢
      simp only [cellAt, ih]
      grind

theorem cellAt_insertCell (cells : List Host.Cell) (a b : Nat) (v : Byte) (h : ∀ c ∈ cells, c.1 ≠ a) :
    cellAt (insertCell a v cells) b = if b = a then v else cellAt cells b := by
  induction cells with
  | nil => simp only [insertCell, cellAt]; grind
  | cons c rest ih =>
    obtain ⟨k, w⟩ := c
    have hk : k ≠ a := h (k, w) (by simp)
    have ih' := ih fun c hc => h c (by simp [hc])
    unfold insertCell
    split <;> simp only [cellAt, ih'] <;> grind

theorem eraseCell_ne (cells : List Host.Cell) (a : Nat) : ∀ c ∈ eraseCell cells a, c.1 ≠ a := by
  simp [eraseCell]

/-- Read after write, for any list: the written address gives the value, every other its old value. -/
theorem cellAt_storeCell (cells : List Host.Cell) (a b : Nat) (v : Byte) :
    cellAt (storeCell cells a v) b = if b = a then v else cellAt cells b := by
  unfold storeCell
  split
  · next hv => rw [cellAt_eraseCell, hv]
  · rw [cellAt_insertCell _ _ _ _ (eraseCell_ne cells a), cellAt_eraseCell]
    split <;> simp_all

theorem mem_insertCell (cells : List Host.Cell) (a : Nat) (v : Byte) (c : Host.Cell) :
    c ∈ insertCell a v cells ↔ c = (a, v) ∨ c ∈ cells := by
  induction cells with
  | nil => simp [insertCell]
  | cons d rest ih =>
    obtain ⟨k, w⟩ := d
    unfold insertCell
    split
    · simp
    · simp only [List.mem_cons, ih]; grind

theorem insertCell_sorted (cells : List Host.Cell) (a : Nat) (v : Byte)
    (hs : cells.Pairwise fun c d => c.1 < d.1) (h : ∀ c ∈ cells, c.1 ≠ a) :
    (insertCell a v cells).Pairwise fun c d => c.1 < d.1 := by
  induction cells with
  | nil => simp [insertCell]
  | cons d rest ih =>
    obtain ⟨k, w⟩ := d
    have hk : k ≠ a := h (k, w) (by simp)
    rw [List.pairwise_cons] at hs
    unfold insertCell
    split
    · next hlt =>
      refine List.pairwise_cons.2 ⟨fun c hc => ?_, List.pairwise_cons.2 hs⟩
      rcases List.mem_cons.1 hc with rfl | hc
      · exact hlt
      · exact Nat.lt_trans hlt (hs.1 c hc)
    · refine List.pairwise_cons.2 ⟨fun c hc => ?_, ih hs.2 fun c hc => h c (by simp [hc])⟩
      rcases (mem_insertCell _ _ _ _).1 hc with rfl | hc
      · show k < a; omega
      · exact hs.1 c hc

/-! ## One byte -/

@[simp] theorem setByte_capacity (m : Memory) (a : Nat) (v : Byte) : (m.setByte a v).capacity = m.capacity := rfl

theorem byte_setByte (m : Memory) (a b : Nat) (v : Byte) :
    (m.setByte a v).byte b = if b = a then v else m.byte b := cellAt_storeCell ..

@[simp] theorem byte_setByte_same (m : Memory) (a : Nat) (v : Byte) : (m.setByte a v).byte a = v := by
  simp [byte_setByte]

@[simp] theorem byte_setByte_ne (m : Memory) (a b : Nat) (v : Byte) (h : b ≠ a) :
    (m.setByte a v).byte b = m.byte b := by
  simp [byte_setByte, h]

/-- A write within the capacity keeps the canonical form. -/
theorem setByte_wf (m : Memory) (a : Nat) (v : Byte) (hm : m.wf) (ha : a < m.capacity) : (m.setByte a v).wf := by
  obtain ⟨hs, hc⟩ := hm
  have hse : (eraseCell m.cells a).Pairwise fun c d => c.1 < d.1 := hs.filter _
  have hce : ∀ c ∈ eraseCell m.cells a, c.2 ≠ 0 ∧ c.1 < m.capacity := fun c hm => hc c (List.mem_of_mem_filter hm)
  show (storeCell m.cells a v).Pairwise _ ∧ ∀ c ∈ storeCell m.cells a v, _
  unfold storeCell
  split
  · exact ⟨hse, hce⟩
  · next hv =>
    refine ⟨insertCell_sorted _ _ _ hse (eraseCell_ne _ _), fun c h => ?_⟩
    rcases (mem_insertCell _ _ _ _).1 h with rfl | h
    · exact ⟨hv, ha⟩
    · exact hce c h

theorem cellAt_of_mem (cells : List Host.Cell) (hs : cells.Pairwise fun c d => c.1 < d.1) (c : Host.Cell)
    (hc : c ∈ cells) : cellAt cells c.1 = c.2 := by
  induction cells with
  | nil => simp at hc
  | cons d rest ih =>
    obtain ⟨k, w⟩ := d
    rw [List.pairwise_cons] at hs
    rcases List.mem_cons.1 hc with rfl | hc
    · simp [cellAt]
    · have : k < c.1 := hs.1 c hc
      rw [cellAt, if_neg (by omega)]
      exact ih hs.2 hc

/-- Above every listed address a list reads zero. -/
theorem cellAt_below (cells : List Host.Cell) (a : Nat) (h : ∀ c ∈ cells, a < c.1) : cellAt cells a = 0 :=
  cellAt_of_not_mem _ _ fun c hc => by have := h c hc; omega

/-! ## The primitives -/

theorem read8_cases (m : Memory) (addr : Nat) :
    (addr < m.capacity ∧ m.read8 addr = .ok (m.byte addr)) ∨
      (m.capacity ≤ addr ∧ m.read8 addr = .error (.memReadFault addr)) := by
  unfold Memory.read8
  split
  · exact .inr ⟨‹_›, rfl⟩
  · exact .inl ⟨by omega, rfl⟩

theorem write8_cases (m : Memory) (addr : Nat) (v : Byte) :
    (addr < m.capacity ∧ m.write8 addr v = .ok (m.setByte addr v)) ∨
      (m.capacity ≤ addr ∧ m.write8 addr v = .error (.memWriteFault addr)) := by
  unfold Memory.write8
  split
  · exact .inr ⟨‹_›, rfl⟩
  · exact .inl ⟨by omega, rfl⟩

theorem read16_ok (m : Memory) (addr : Nat) (h : addr + 1 < m.capacity) :
    m.read16 addr = .ok (wordOfBytes (m.byte addr) (m.byte (addr + 1))) := by
  rw [Memory.read16, if_neg (by omega)]

theorem read16_error (m : Memory) (addr : Nat) (h : m.capacity ≤ addr + 1) :
    m.read16 addr = .error (.memReadFault addr) := by
  rw [Memory.read16, if_pos h]

theorem write16_ok (m : Memory) (addr : Nat) (v : Word) (h : addr + 1 < m.capacity) :
    m.write16 addr v = .ok ((m.setByte addr (lowByte v)).setByte (addr + 1) (highByte v)) := by
  rw [Memory.write16, if_neg (by omega)]

theorem write16_error (m : Memory) (addr : Nat) (v : Word) (h : m.capacity ≤ addr + 1) :
    m.write16 addr v = .error (.memWriteFault addr) := by
  rw [Memory.write16, if_pos h]

/-- Everything a two-byte write can do. -/
theorem write16_spec (m m' : Memory) (addr : Nat) (v : Word) (h : m.write16 addr v = .ok m') :
    addr + 1 < m.capacity ∧ m'.capacity = m.capacity ∧ m'.byte addr = lowByte v ∧ m'.byte (addr + 1) = highByte v ∧
      (∀ a, a ≠ addr → a ≠ addr + 1 → m'.byte a = m.byte a) ∧ (m.wf → m'.wf) := by
  by_cases hb : addr + 1 < m.capacity
  · rw [write16_ok m addr v hb] at h
    cases h
    refine ⟨hb, rfl, by simp, by simp, fun a h1 h2 => by simp [h1, h2], fun hm => ?_⟩
    exact setByte_wf _ _ _ (setByte_wf _ _ _ hm (by omega)) hb
  · rw [write16_error m addr v (by omega)] at h
    cases h

@[simp] theorem setBytes_capacity (m : Memory) (addr : Nat) (bs : List Byte) :
    (m.setBytes addr bs).capacity = m.capacity := by
  induction bs generalizing m addr with
  | nil => rfl
  | cons b rest ih => rw [Memory.setBytes, ih]; rfl

/-- Bytes written in order land at consecutive addresses, and no other byte changes. -/
theorem byte_setBytes (m : Memory) (addr : Nat) (bs : List Byte) (a : Nat) :
    (m.setBytes addr bs).byte a =
      if h : addr ≤ a ∧ a < addr + bs.length then bs[a - addr]'(by omega) else m.byte a := by
  induction bs generalizing m addr with
  | nil => simp [Memory.setBytes]
  | cons b rest ih =>
    rw [Memory.setBytes, ih]
    by_cases h0 : a = addr
    · subst h0; simp
    · simp only [List.length_cons, byte_setByte, h0, if_false]
      by_cases h1 : addr + 1 ≤ a ∧ a < addr + 1 + rest.length
      · rw [dif_pos h1, dif_pos (by omega), List.getElem_cons, dif_neg (by omega)]
        congr 1
      · rw [dif_neg h1, dif_neg (by omega)]

theorem setBytes_wf (m : Memory) (addr : Nat) (bs : List Byte) (hm : m.wf) (h : addr + bs.length ≤ m.capacity) :
    (m.setBytes addr bs).wf := by
  induction bs generalizing m addr with
  | nil => exact hm
  | cons b rest ih =>
    rw [List.length_cons] at h
    exact ih _ _ (setByte_wf m addr b hm (by omega)) (by rw [setByte_capacity]; omega)

end Sys2Proof.Machine
end

