-- ==== Sys2Proof/Laws/Handlers.lean ====
section
/-! SUPPORT. The handler table and the handlers: lookup after registration, the table's canonical form, and what no
handler can change of the memory it is given. -/

namespace Sys2Proof.Machine

/-! ## The table -/

theorem find_of_not_mem (t : HandlerTable) (code : Byte) (h : ∀ e ∈ t, e.1 ≠ code) : HandlerTable.find t code = none := by
  induction t with
  | nil => rfl
  | cons e rest ih =>
    obtain ⟨c, g⟩ := e
    rw [HandlerTable.find, if_neg (h (c, g) (by simp))]
    exact ih fun e he => h e (by simp [he])

theorem find_filter (t : HandlerTable) (code c : Byte) :
    HandlerTable.find (t.filter fun e => e.1 ≠ code) c = if c = code then none else HandlerTable.find t c := by
  induction t with
  | nil => simp [HandlerTable.find]
  | cons e rest ih =>
    obtain ⟨k, g⟩ := e
    by_cases hk : k = code
    · subst hk
      simp only [List.filter_cons, ne_eq, not_true_eq_false, decide_false] at ih ⊢
      simp only [Bool.false_eq_true, if_false, ih, HandlerTable.find]
      grind
    · simp only [List.filter_cons, ne_eq, hk, not_false_eq_true, decide_true, if_true] at ih ⊢
      simp only [HandlerTable.find, ih]
      grind

theorem find_insert (t : HandlerTable) (code c : Byte) (h : Handler) (ht : ∀ e ∈ t, e.1 ≠ code) :
    HandlerTable.find (HandlerTable.insert code h t) c = if c = code then some h else HandlerTable.find t c := by
  induction t with
  | nil => simp only [HandlerTable.insert, HandlerTable.find]; grind
  | cons e rest ih =>
    obtain ⟨k, g⟩ := e
    have hk : k ≠ code := ht (k, g) (by simp)
    have ih' := ih fun e he => ht e (by simp [he])
    unfold HandlerTable.insert
    split <;> simp only [HandlerTable.find, ih'] <;> grind

theorem mem_insert (t : HandlerTable) (code : Byte) (h : Handler) (e : Byte × Handler) :
    e ∈ HandlerTable.insert code h t ↔ e = (code, h) ∨ e ∈ t := by
  induction t with
  | nil => simp [HandlerTable.insert]
  | cons d rest ih =>
    obtain ⟨k, g⟩ := d
    unfold HandlerTable.insert
    split
    · simp
    · simp only [List.mem_cons, ih]; grind

theorem bind_wf (t : HandlerTable) (code : Byte) (h : Handler) (ht : HandlerTable.wf t) :
    HandlerTable.wf (HandlerTable.bind t code h) := by
  have hne : ∀ e ∈ t.filter fun e => e.1 ≠ code, e.1 ≠ code := by simp
  have hs : HandlerTable.wf (t.filter fun e => e.1 ≠ code) := List.Pairwise.filter _ ht
  rw [HandlerTable.bind]
  generalize (t.filter fun e => e.1 ≠ code) = u at hne hs
  induction u with
  | nil => simp [HandlerTable.insert, HandlerTable.wf]
  | cons d rest ih =>
    obtain ⟨k, g⟩ := d
    have hk : k ≠ code := hne (k, g) (by simp)
    have hk' : k.toNat ≠ code.toNat := fun h => hk (BitVec.eq_of_toNat_eq h)
    rw [HandlerTable.wf, List.pairwise_cons] at hs
    unfold HandlerTable.insert
    split
    · next hlt =>
      refine List.pairwise_cons.2 ⟨fun e he => ?_, List.pairwise_cons.2 hs⟩
      rcases List.mem_cons.1 he with rfl | he
      · exact hlt
      · exact Nat.lt_trans hlt (hs.1 e he)
    · refine List.pairwise_cons.2 ⟨fun e he => ?_, ih (fun e he => hne e (by simp [he])) hs.2⟩
      rcases (mem_insert _ _ _ _).1 he with rfl | he
      · show k.toNat < code.toNat; omega
      · exact hs.1 e he

/-! ## The handlers -/

/-- What every handler's answer keeps of the memory it was given: the capacity (R99) and the canonical form. -/
def KeepsMemory (v u : View) : Prop := u.mem.capacity = v.mem.capacity ∧ (v.mem.wf → u.mem.wf)

theorem KeepsMemory.refl (v : View) : KeepsMemory v v := ⟨rfl, id⟩

theorem KeepsMemory.trans {v u w : View} (h : KeepsMemory v u) (g : KeepsMemory u w) : KeepsMemory v w :=
  ⟨g.1.trans h.1, g.2 ∘ h.2⟩

theorem store8_keepsMemory (v : View) (addr : Nat) (b : Byte) : KeepsMemory v (v.store8 addr b) := by
  unfold View.store8
  rcases write8_cases v.mem addr b with ⟨h, e⟩ | ⟨_, e⟩ <;> rw [e]
  · exact ⟨rfl, fun hm => setByte_wf _ _ _ hm h⟩
  · exact KeepsMemory.refl v

theorem act_keepsMemory (v : View) (a : HandlerAction) : KeepsMemory v (a.act v) := by
  cases a with
  | setReg r w => exact KeepsMemory.refl v
  | copyReg d r => exact KeepsMemory.refl v
  | load8 d addr => simp only [HandlerAction.act]; split <;> exact KeepsMemory.refl v
  | load16 d addr => simp only [HandlerAction.act]; split <;> exact KeepsMemory.refl v
  | store8 addr b => exact store8_keepsMemory v addr b
  | store16 addr w =>
    simp only [HandlerAction.act]
    split
    · next m h => obtain ⟨_, hc, _, _, _, hw⟩ := write16_spec _ _ _ _ h; exact ⟨hc, hw⟩
    · exact KeepsMemory.refl v
  | setHalt b => exact KeepsMemory.refl v

theorem foldl_keepsMemory {α : Type} (f : View → α → View) (hf : ∀ v a, KeepsMemory v (f v a)) (l : List α) (v : View) :
    KeepsMemory v (l.foldl f v) := by
  induction l generalizing v with
  | nil => exact KeepsMemory.refl v
  | cons a rest ih => exact (hf v a).trans (ih _)

/-- No handler changes the capacity, and none breaks the canonical form (R99). -/
theorem body_keepsMemory (h : Handler) (v : View) : KeepsMemory v (h.body v).1 := by
  cases h with
  | halt => exact KeepsMemory.refl v
  | script actions out => exact foldl_keepsMemory _ act_keepsMemory actions v
  | host id =>
    exact foldl_keepsMemory (fun u (c : Host.Cell) => u.store8 c.1 c.2) (fun u c => store8_keepsMemory u c.1 c.2)
      (Config.hostHandler id v).stores v

end Sys2Proof.Machine
end

