-- ==== Sys2Proof/Laws/Ops.lean ====
section
/-! SUPPORT. One lemma per shared operation: everything it can do. -/

namespace Sys2Proof.Machine

/-- What every operation keeps whatever happens: the parameters, the handler table, halt once it is set, and the
canonical form of memory (R6, R26, R27, R28). -/
structure Keeps (s t : State) : Prop where
  popReserved : t.popReserved = s.popReserved
  capacity : t.mem.capacity = s.mem.capacity
  handlers : t.handlers = s.handlers
  halt : s.halt = true → t.halt = true
  memWf : s.mem.wf → t.mem.wf

theorem Keeps.refl (s : State) : Keeps s s := ⟨rfl, rfl, rfl, id, id⟩

theorem Keeps.trans {s t u : State} (h : Keeps s t) (g : Keeps t u) : Keeps s u :=
  ⟨g.popReserved.trans h.popReserved, g.capacity.trans h.capacity, g.handlers.trans h.handlers,
    g.halt ∘ h.halt, g.memWf ∘ h.memWf⟩

theorem keeps_setReg (s : State) (r : Reg) (v : Word) : Keeps s (s.setReg r v) := ⟨rfl, rfl, rfl, id, id⟩

/-! ## The +2 and -2 of PC and SP, as natural numbers -/

theorem toNat_sub16_two (w : Word) (h : 2 ≤ w.toNat) : (sub16 w 2).toNat = w.toNat - 2 := by
  have := w.isLt
  rw [sub16, BitVec.toNat_sub, show BitVec.toNat (2 : Word) = 2 from rfl]
  omega

theorem toNat_add16_two (w : Word) : (add16 w 2).toNat = (w.toNat + 2) % 65536 := by
  rw [add16, BitVec.toNat_add, show BitVec.toNat (2 : Word) = 2 from rfl]

theorem add16_sub16_two (w : Word) : sub16 (add16 w 2) 2 = w := by
  simp [add16, sub16]

/-! ## Push16 (R88) -/

theorem push16_ok (v : Word) (s : State) (h : pushAddr s + 1 < s.mem.capacity) :
    push16 v s = .ok ({ s with mem := (s.mem.setByte (pushAddr s) (lowByte v)).setByte (pushAddr s + 1) (highByte v) }.setReg
      .SP (add16 (s.reg .SP) 2)) := by
  rw [push16, write16_ok _ _ _ h]

theorem push16_error (v : Word) (s : State) (h : s.mem.capacity ≤ pushAddr s + 1) :
    push16 v s = .error (.memWriteFault (s.reg .SP) s) := by
  rw [push16, write16_error _ _ _ h]

/-- Everything Push16 can do when it succeeds. -/
theorem push16_spec (v : Word) (s t : State) (h : push16 v s = .ok t) :
    pushAddr s + 1 < s.mem.capacity ∧ t.reg .SP = add16 (s.reg .SP) 2 ∧ (∀ r, r ≠ .SP → t.reg r = s.reg r) ∧
      t.mem.byte (pushAddr s) = lowByte v ∧ t.mem.byte (pushAddr s + 1) = highByte v ∧
      (∀ a, a ≠ pushAddr s → a ≠ pushAddr s + 1 → t.mem.byte a = s.mem.byte a) ∧ t.halt = s.halt ∧ Keeps s t := by
  unfold push16 at h
  split at h
  · cases h
  · next m hm =>
    obtain ⟨hb, hc, h1, h2, h3, h4⟩ := write16_spec _ _ _ _ hm
    cases h
    exact ⟨hb, by simp, fun r hr => by simp [hr], h1, h2, h3, rfl, rfl, hc, rfl, id, h4⟩

theorem push16_fault (v : Word) (s : State) (f : Fault) (h : push16 v s = .error f) :
    s.mem.capacity ≤ pushAddr s + 1 ∧ f = .memWriteFault (s.reg .SP) s := by
  by_cases hb : pushAddr s + 1 < s.mem.capacity
  · rw [push16_ok v s hb] at h; cases h
  · rw [push16_error v s (by omega)] at h; cases h; exact ⟨by omega, rfl⟩

/-! ## Pop16 (R89) -/

theorem popAddr_eq (s : State) (h : 2 ≤ (s.reg .SP).toNat) : popAddr s = (s.reg .SP).toNat - 2 :=
  toNat_sub16_two _ h

theorem pop16_underflow (s : State) (h : (s.reg .SP).toNat < 2) :
    pop16 s = .error (.stackUnderflow (s.reg .SP) s) := by
  rw [pop16, if_pos h]

theorem pop16_error (s : State) (h : 2 ≤ (s.reg .SP).toNat) (hb : s.mem.capacity < (s.reg .SP).toNat) :
    pop16 s = .error (.memReadFault (sub16 (s.reg .SP) 2) s) := by
  rw [pop16, if_neg (by omega), read16_error _ _ (by rw [popAddr_eq s h]; omega)]

theorem pop16_ok (s : State) (h : 2 ≤ (s.reg .SP).toNat) (hb : (s.reg .SP).toNat ≤ s.mem.capacity) :
    pop16 s = .ok (wordOfBytes (s.mem.byte (popAddr s)) (s.mem.byte (popAddr s + 1)),
      s.setReg .SP (sub16 (s.reg .SP) 2)) := by
  rw [pop16, if_neg (by omega), read16_ok _ _ (by rw [popAddr_eq s h]; omega)]

/-- The three things Pop16 can do. -/
theorem pop16_cases (s : State) :
    ((s.reg .SP).toNat < 2 ∧ pop16 s = .error (.stackUnderflow (s.reg .SP) s)) ∨
      (2 ≤ (s.reg .SP).toNat ∧ s.mem.capacity < (s.reg .SP).toNat ∧
        pop16 s = .error (.memReadFault (sub16 (s.reg .SP) 2) s)) ∨
      (2 ≤ (s.reg .SP).toNat ∧ (s.reg .SP).toNat ≤ s.mem.capacity ∧
        pop16 s = .ok (wordOfBytes (s.mem.byte (popAddr s)) (s.mem.byte (popAddr s + 1)),
          s.setReg .SP (sub16 (s.reg .SP) 2))) := by
  by_cases h : 2 ≤ (s.reg .SP).toNat
  · by_cases hb : (s.reg .SP).toNat ≤ s.mem.capacity
    · exact .inr (.inr ⟨h, hb, pop16_ok s h hb⟩)
    · exact .inr (.inl ⟨h, by omega, pop16_error s h (by omega)⟩)
  · exact .inl ⟨by omega, pop16_underflow s (by omega)⟩

/-! ## Fetch (R75) -/

theorem fetch_ok (s : State) (h : (s.reg .PC).toNat + 1 < s.mem.capacity) :
    fetch s = .ok (wordOfBytes (s.mem.byte (s.reg .PC).toNat) (s.mem.byte ((s.reg .PC).toNat + 1))) := by
  rw [fetch, read16_ok _ _ h]

theorem fetch_error (s : State) (h : s.mem.capacity ≤ (s.reg .PC).toNat + 1) :
    fetch s = .error (.fetchFault (s.reg .PC) s) := by
  rw [fetch, read16_error _ _ h]

theorem fetch_cases (s : State) :
    (s.mem.capacity ≤ (s.reg .PC).toNat + 1 ∧ fetch s = .error (.fetchFault (s.reg .PC) s)) ∨
      ((s.reg .PC).toNat + 1 < s.mem.capacity ∧
        fetch s = .ok (wordOfBytes (s.mem.byte (s.reg .PC).toNat) (s.mem.byte ((s.reg .PC).toNat + 1)))) := by
  by_cases h : (s.reg .PC).toNat + 1 < s.mem.capacity
  · exact .inr ⟨h, fetch_ok s h⟩
  · exact .inl ⟨by omega, fetch_error s (by omega)⟩

/-! ## Signal dispatch (R98) -/

theorem trapEnter_cases (code : Byte) (s : State) :
    (HandlerTable.find s.handlers code = none ∧ trapEnter code s = .error (.unknownSignal code s)) ∨
      ∃ h, HandlerTable.find s.handlers code = some h ∧ trapEnter code s = .ok h := by
  unfold trapEnter
  split
  · next hf => exact .inl ⟨hf, rfl⟩
  · next h hf => exact .inr ⟨h, hf, rfl⟩

theorem dispatch_cases (h : View → View × HandlerOutcome) (s : State) :
    ((h s.view).2 = .ok ∧ dispatch h s = .ok (s.merge (h s.view).1)) ∨
      ∃ e, (h s.view).2 = .err e ∧ dispatch h s = .error (.handlerFailure e (s.merge (h s.view).1)) := by
  unfold dispatch trapReturn
  split
  · next ho => exact .inl ⟨ho, rfl⟩
  · next e ho => exact .inr ⟨e, ho, rfl⟩

theorem keeps_merge_body (h : Handler) (s : State) : Keeps s (s.merge (h.body s.view).1) := by
  obtain ⟨hc, hw⟩ := body_keepsMemory h s.view
  exact ⟨rfl, hc, rfl, fun hs => by simp [hs], hw⟩

end Sys2Proof.Machine
end

