-- ==== Sys2Proof/Laws/Step.lean ====
section
/-! SUPPORT. The inversion of a step: which of three ways it goes. -/

namespace Sys2Proof.Machine

/-- A step ends at the fetch, at the decoder, or with the execute phase on the advanced state (R80). -/
theorem step_cases (s : State) :
    (s.mem.capacity ≤ (s.reg .PC).toNat + 1 ∧ Safety.fetched s = none ∧ step s = .fault (.fetchFault (s.reg .PC) s)) ∨
      (∃ w e, fetch s = .ok w ∧ decode s.popReserved w = .error e ∧ Safety.fetched s = none ∧
        step s = .fault (decodeFault e (advance s))) ∨
      ∃ w i, fetch s = .ok w ∧ decode s.popReserved w = .ok i ∧ Safety.fetched s = some i ∧
        step s = exec i (advance s) := by
  rcases fetch_cases s with ⟨hb, hf⟩ | ⟨_, hf⟩
  · exact .inl ⟨hb, by simp [Safety.fetched, hf], by simp [step, hf]⟩
  · refine .inr ?_
    generalize wordOfBytes _ _ = w at hf
    cases hd : decode s.popReserved w with
    | error e => exact .inl ⟨w, e, hf, hd, by simp [Safety.fetched, hf, hd], by simp [step, hf, hd]⟩
    | ok i => exact .inr ⟨w, i, hf, hd, by simp [Safety.fetched, hf, hd], by simp [step, hf, hd]⟩

/-- Where the fetched word decodes, the step is that instruction's execute phase. -/
theorem step_of_fetched (s : State) (i : Instr) (h : Safety.fetched s = some i) : step s = exec i (advance s) := by
  rcases step_cases s with ⟨_, hn, _⟩ | ⟨_, _, _, _, hn, _⟩ | ⟨_, j, _, _, hj, hs⟩
  · simp [hn] at h
  · simp [hn] at h
  · rw [hj] at h; cases h; exact hs

theorem fetched_of_step_next (s t : State) (h : step s = .next t) :
    ∃ i, Safety.fetched s = some i ∧ exec i (advance s) = .next t := by
  rcases step_cases s with ⟨_, _, hs⟩ | ⟨_, _, _, _, _, hs⟩ | ⟨_, i, _, _, hi, hs⟩
  · simp [hs] at h
  · simp [hs] at h
  · exact ⟨i, hi, hs ▸ h⟩

/-! ## The execute phases that use the stack, as conditions on sp -/

theorem execPush_eq (imm : Byte) (s : State) : exec (.push imm) s = finish (push16 (immWord imm) s) := rfl

theorem execPopRegister_ok (r : Reg) (s t : State) (v : Word) (h : pop16 s = .ok (v, t)) :
    exec (.popRegister r) s = .next (t.setReg r v) := by
  simp [exec, execPopRegister, h, bind, Except.bind, pure, Except.pure]

theorem execPopRegister_error (r : Reg) (s : State) (f : Fault) (h : pop16 s = .error f) :
    exec (.popRegister r) s = .fault f := by
  simp [exec, execPopRegister, h, bind, Except.bind]

theorem execAddStack_first (s : State) (f : Fault) (h : pop16 s = .error f) : exec .addStack s = .fault f := by
  simp [exec, execAddStack, h, bind, Except.bind]

theorem execAddStack_second (s t : State) (a : Word) (f : Fault) (h : pop16 s = .ok (a, t)) (g : pop16 t = .error f) :
    exec .addStack s = .fault f := by
  simp [exec, execAddStack, h, g, bind, Except.bind]

theorem execAddStack_push (s t u : State) (a b : Word) (h : pop16 s = .ok (a, t)) (g : pop16 t = .ok (b, u)) :
    exec .addStack s = finish (push16 (add16 a b) u) := by
  simp [exec, execAddStack, h, g, bind, Except.bind]

theorem execSignal_unbound (code : Byte) (s : State) (h : HandlerTable.find s.handlers code = none) :
    exec (.signal code) s = .fault (.unknownSignal code s) := by
  simp [exec, execSignal, trapEnter, h, bind, Except.bind]

theorem execSignal_bound (code : Byte) (s : State) (g : Handler) (h : HandlerTable.find s.handlers code = some g) :
    exec (.signal code) s = finish (dispatch g.body s) := by
  simp [exec, execSignal, trapEnter, h, bind, Except.bind]

end Sys2Proof.Machine
end

