-- ==== Sys2Proof/Laws/Exec.lean ====
section
/-! SUPPORT. Inversion of the pops and of the execute phase: everything each operation can do, said once. -/

namespace Sys2Proof.Machine

/-- Everything a successful Pop16 says of the state before and after it (R89). -/
theorem pop16_next (s t : State) (v : Word) (h : pop16 s = .ok (v, t)) :
    t = s.setReg .SP (sub16 (s.reg .SP) 2) ∧ 2 ≤ (s.reg .SP).toNat ∧ (s.reg .SP).toNat ≤ s.mem.capacity ∧
      v = wordOfBytes (s.mem.byte (popAddr s)) (s.mem.byte (popAddr s + 1)) ∧ Keeps s t := by
  rcases pop16_cases s with ⟨_, e⟩ | ⟨_, _, e⟩ | ⟨h1, h2, e⟩ <;> rw [e] at h <;> cases h
  exact ⟨rfl, h1, h2, rfl, keeps_setReg ..⟩

/-- A failing Pop16 carries the state it was given (R89). -/
theorem pop16_fault (s : State) (f : Fault) (h : pop16 s = .error f) :
    f = .stackUnderflow (s.reg .SP) s ∧ (s.reg .SP).toNat < 2 ∨
      f = .memReadFault (sub16 (s.reg .SP) 2) s ∧ 2 ≤ (s.reg .SP).toNat ∧ s.mem.capacity < (s.reg .SP).toNat := by
  rcases pop16_cases s with ⟨h1, e⟩ | ⟨h1, h2, e⟩ | ⟨_, _, e⟩ <;> rw [e] at h <;> cases h
  · exact .inl ⟨rfl, h1⟩
  · exact .inr ⟨rfl, h1, h2⟩

/-- The ways an execute phase can go (R79), one per line of the operations' pseudocode. -/
inductive ExecCase : Instr → State → Host.Outcome State Fault Refusal → Prop where
  | nop (s) : ExecCase .nop s (.next s)
  | push (imm s t) (hp : push16 (immWord imm) s = .ok t) : ExecCase (.push imm) s (.next t)
  | pushFault (imm s) (hb : s.mem.capacity ≤ pushAddr s + 1) :
      ExecCase (.push imm) s (.fault (.memWriteFault (s.reg .SP) s))
  | pop (r s v t) (hp : pop16 s = .ok (v, t)) : ExecCase (.popRegister r) s (.next (t.setReg r v))
  | popFault (r s f) (hp : pop16 s = .error f) : ExecCase (.popRegister r) s (.fault f)
  | addFirst (s f) (hp : pop16 s = .error f) : ExecCase .addStack s (.fault f)
  | addSecond (s a s1) (hp : pop16 s = .ok (a, s1)) (hlt : (s1.reg .SP).toNat < 2) :
      ExecCase .addStack s (.fault (.stackUnderflow (s1.reg .SP) s1))
  | add (s a s1 b s2 t) (hp : pop16 s = .ok (a, s1)) (hq : pop16 s1 = .ok (b, s2))
      (hr : push16 (add16 a b) s2 = .ok t) : ExecCase .addStack s (.next t)
  | addRegister (r1 r2 s) : ExecCase (.addRegister r1 r2) s (.next (s.setReg r1 (add16 (s.reg r1) (s.reg r2))))
  | signalUnbound (c s) (hf : HandlerTable.find s.handlers c = none) :
      ExecCase (.signal c) s (.fault (.unknownSignal c s))
  | signal (c s h) (hf : HandlerTable.find s.handlers c = some h) (ho : (h.body s.view).2 = .ok) :
      ExecCase (.signal c) s (.next (s.merge (h.body s.view).1))
  | signalFault (c s h e) (hf : HandlerTable.find s.handlers c = some h) (ho : (h.body s.view).2 = .err e) :
      ExecCase (.signal c) s (.fault (.handlerFailure e (s.merge (h.body s.view).1)))

/-- Every execute phase goes one of these ways. -/
theorem exec_cases (i : Instr) (s : State) : ExecCase i s (exec i s) := by
  cases i with
  | nop => exact .nop s
  | push imm =>
    rw [execPush_eq]
    by_cases h : pushAddr s + 1 < s.mem.capacity
    · rw [push16_ok _ _ h]; exact .push imm s _ (push16_ok _ _ h)
    · rw [push16_error _ _ (by omega)]; exact .pushFault imm s (by omega)
  | popRegister r =>
    rcases hp : pop16 s with f | ⟨v, t⟩
    · rw [execPopRegister_error r s f hp]; exact .popFault r s f hp
    · rw [execPopRegister_ok r s t v hp]; exact .pop r s v t hp
  | addStack =>
    rcases hp : pop16 s with f | ⟨a, s1⟩
    · rw [execAddStack_first s f hp]; exact .addFirst s f hp
    obtain ⟨hs1, h1, h2, -, -⟩ := pop16_next s s1 a hp
    have e1 : (s1.reg .SP).toNat = (s.reg .SP).toNat - 2 := by rw [hs1, reg_setReg_same, toNat_sub16_two _ h1]
    have m1 : s1.mem = s.mem := by rw [hs1]; rfl
    rcases hq : pop16 s1 with f | ⟨b, s2⟩
    · rw [execAddStack_second s s1 a f hp hq]
      rcases pop16_fault s1 f hq with ⟨rfl, h3⟩ | ⟨rfl, h3, h4⟩
      · exact .addSecond s a s1 hp h3
      · rw [m1] at h4; omega
    · obtain ⟨hs2, h3, -, -, -⟩ := pop16_next s1 s2 b hq
      have hb : pushAddr s2 + 1 < s2.mem.capacity := by
        rw [pushAddr, hs2, reg_setReg_same, toNat_sub16_two _ h3, setReg_mem, m1]; omega
      rw [execAddStack_push s s1 s2 a b hp hq, push16_ok _ _ hb]
      exact .add s a s1 b s2 _ hp hq (push16_ok _ _ hb)
  | addRegister r1 r2 => exact .addRegister r1 r2 s
  | signal c =>
    cases hf : HandlerTable.find s.handlers c with
    | none => rw [execSignal_unbound c s hf]; exact .signalUnbound c s hf
    | some h =>
      rw [execSignal_bound c s h hf]
      rcases dispatch_cases h.body s with ⟨ho, hd⟩ | ⟨e, ho, hd⟩
      · rw [hd]; exact .signal c s h hf ho
      · rw [hd]; exact .signalFault c s h e hf ho

end Sys2Proof.Machine
end

