-- ==== Sys2Proof/Laws/PerInstr.lean ====
section
/-! SUPPORT. A fact per instruction, as syntax: it is well formed exactly when the encoder gives it a word (R65, R69). -/

namespace Sys2Proof.Laws

/-- Well formed exactly when encodable. -/
def EncodedIffWellFormed.Statement (i : Instr) : Prop := i.wellFormed = (encode i).isSome

theorem EncodedIffWellFormed.nop : EncodedIffWellFormed.Statement .nop := rfl
theorem EncodedIffWellFormed.push (imm : Byte) : EncodedIffWellFormed.Statement (.push imm) := rfl
theorem EncodedIffWellFormed.popRegister (r : Reg) : EncodedIffWellFormed.Statement (.popRegister r) := rfl
theorem EncodedIffWellFormed.addStack : EncodedIffWellFormed.Statement .addStack := rfl
theorem EncodedIffWellFormed.addRegister (r1 r2 : Reg) : EncodedIffWellFormed.Statement (.addRegister r1 r2) := rfl
theorem EncodedIffWellFormed.signal (code : Byte) : EncodedIffWellFormed.Statement (.signal code) := rfl

end Sys2Proof.Laws
end

