-- ==== Sys2Proof/Tests/Slice0.lean ====
section
/-! SUPPORT. Tests whose expected results are the vectors of 95_test_vectors.md (named in each comment), and for every
obligation with hypotheses a concrete state and operands that meet them, at the boundary values of its clauses. -/

namespace Sys2Proof.Tests

open Sys2Proof.Machine Sys2Proof.Safety

/-- A state of N bytes with some cells, sp and pc; everything else at its reset value. -/
def at_ (n : Nat) (cells : List Host.Cell) (sp pc : Word) : State where
  popReserved := .ignore
  regs := ⟨0, 0, 0, 0, sp, pc, 0, 0⟩
  mem := ⟨n, cells⟩
  halt := false
  handlers := []

/-- The state an outcome goes on with. -/
def next? : Host.Outcome State Fault Refusal → Option State
  | .next s => some s
  | _ => none

/-- The fault an outcome stops with. -/
def fault? : Host.Outcome State Fault Refusal → Option Fault
  | .fault f => some f
  | _ => none

/-- Code and state left of a fault. -/
def codeLeft? (o : Host.Outcome State Fault Refusal) : Option (Nat × State) := (fault? o).map fun f => (f.code, f.left)

/-! ## Well-formedness, decoder, encoder -/

/-- The one check of `Instr.wellFormed` refuses the one operation without an encoding (R65). -/
theorem test_wellFormed_refuses_addRegister : (Instr.addRegister .A .B).wellFormed = false := rfl

/-- D-DEC-1 to 8, 17, 18, 21, 22, 25: the words that decode under both policies. -/
theorem test_words_decode : ∀ p ∈ [PopReserved.ignore, .reject],
    decode p 0x0000 = .ok .nop ∧ decode p 0xAB00 = .ok .nop ∧ decode p 0x0A01 = .ok (.push 0x0A) ∧
    decode p 0xFF01 = .ok (.push 0xFF) ∧ decode p 0x0002 = .ok (.popRegister .A) ∧
    decode p 0x0402 = .ok (.popRegister .SP) ∧ decode p 0x0502 = .ok (.popRegister .PC) ∧
    decode p 0x0702 = .ok (.popRegister .FLAGS) ∧ decode p 0x0003 = .ok .addStack ∧ decode p 0x5503 = .ok .addStack ∧
    decode p 0xF0F0 = .ok (.signal 0xF0) ∧ decode p 0x00F0 = .ok (.signal 0) ∧ decode p 0x0100 = .ok .nop := by decide

/-- D-DEC-9, 10, 19, 20, 23, 24: the words that fail under both policies, with their info values. -/
theorem test_words_refused : ∀ p ∈ [PopReserved.ignore, .reject],
    decode p 0x0802 = .error (.invalidRegister 0x08) ∧ decode p 0x0F02 = .error (.invalidRegister 0x0F) ∧
    decode p 0x0004 = .error (.unknownOpcode 0x04) ∧ decode p 0x01EF = .error (.unknownOpcode 0xEF) ∧
    decode p 0xF0F1 = .error (.unknownOpcode 0xF1) ∧ decode p 0x00FF = .error (.unknownOpcode 0xFF) := by decide

/-- D-DEC-11 to 16: reserved bits under each policy. -/
theorem test_reserved_bits_by_policy :
    decode .ignore 0x1002 = .ok (.popRegister .A) ∧ decode .reject 0x1002 = .error (.invalidRegister 0x10) ∧
    decode .ignore 0xF702 = .ok (.popRegister .FLAGS) ∧ decode .reject 0xF702 = .error (.invalidRegister 0xF7) ∧
    decode .ignore 0x1802 = .error (.invalidRegister 0x08) ∧
    decode .reject 0x1802 = .error (.invalidRegister 0x18) := by decide

/-- D-ENC-1a to 1e and D-ENC-2. -/
theorem test_encode :
    encode .nop = some 0x0000 ∧ encode (.push 0x7F) = some 0x7F01 ∧ encode (.popRegister .BP) = some 0x0602 ∧
    encode .addStack = some 0x0003 ∧ encode (.signal 0x33) = some 0x33F0 ∧ encode (.addRegister .A .B) = none ∧
    encodeBytes (.push 0x7F) = some [0x01, 0x7F] := by decide

/-- R71, L1-1: the program image of the worked example; R72: its listing. -/
theorem test_program_image :
    programImage [.push 10, .push 8, .addStack, .popRegister .A] = some [0x01, 0x0A, 0x01, 0x08, 0x03, 0x00, 0x02, 0x00] ∧
    (Instr.popRegister .A).text = "PopRegister A" ∧ (Instr.push 10).text = "Push 10" := by decide

/-- R68: tags in the listed variant order and the unused fields 0; the register on r1 is log 10's choice. -/
theorem test_decoderOutput :
    decoderOutput (decode .ignore 0x0A01) = ⟨1, 1, 0x0A, 0, 0, 0, 0⟩ ∧ (decoderOutput (decode .ignore 0x0702)).tag = 2 ∧
    (decoderOutput (decode .ignore 0x0702)).r1 = 7 ∧ (decoderOutput (decode .ignore 0x33F0)).tag = 5 ∧
    (decoderOutput (decode .ignore 0x0802)).ekind = 1 := by decide

/-- The host's question, on a full word and on opcode bits alone. -/
theorem test_decodeTableWord :
    decodeTableWord 16 0x0A01 = some (.push 0x0A) ∧ decodeTableWord 8 0x0A03 = some .addStack ∧
    decodeTableWord 16 0x0004 = none := by decide

/-- A word placed by `withFetchWord` is what the next step runs. -/
theorem test_withFetchWord_runs :
    (next? (step (State.reset.withFetchWord 16 0x0A01))).map (fun t => (t.mem.cells, t.reg .SP, t.reg .PC)) =
      some ([(0, 0x0A)], 2, 2) := by decide

/-! ## One step each -/

/-- D-STEP-1. -/
theorem test_nop_last_word : (next? (step (at_ 8192 [] 0 8190))).map (fun t => t.reg .PC) = some 8192 := by decide

/-- D-PU-1: zero-extended, never sign-extended. -/
theorem test_push_zero_extends :
    (next? (exec (.push 0xFF) (at_ 8192 [] 0 0))).map (fun t => (t.mem.cells, t.reg .SP)) = some ([(0, 0xFF)], 2) := by decide

/-- D-STEP-7 and 8: halt is not read; an odd pc is fetched like any other. -/
theorem test_push_halted_and_odd :
    (next? (step { at_ 8192 [(0, 1), (1, 5)] 0 0 with halt := true })).map
      (fun t => (t.mem.cells, t.reg .SP, t.halt)) = some ([(0, 5)], 2, true) ∧
    (next? (step (at_ 8192 [(3, 1), (4, 9)] 0 3))).map (fun t => t.reg .PC) = some 5 := by decide

/-- D-PO-1: with r = SP the popped value stays. -/
theorem test_pop_sp :
    (next? (exec (.popRegister .SP) (at_ 8192 [(2, 0x34), (3, 0x12)] 4 0))).map (fun t => t.reg .SP) = some 0x1234 := by
  decide

/-- D-PO-2: with r = PC the value overrides the advance. -/
theorem test_pop_pc :
    (next? (exec (.popRegister .PC) (at_ 8192 [(0, 0x20)] 2 0x0A))).map (fun t => (t.reg .PC, t.reg .SP)) =
      some (0x20, 0) := by decide

/-- D-AS-1: the sum wraps. -/
theorem test_addStack_wraps :
    (next? (exec .addStack (at_ 8192 [(0, 0xFF), (1, 0xFF), (2, 1)] 4 0))).map (fun t => (t.mem.cells, t.reg .SP)) =
      some ([(2, 1)], 2) := by decide

/-- D-AS-5: the first pop is not rolled back. -/
theorem test_addStack_no_rollback :
    codeLeft? (exec .addStack (at_ 8192 [(0, 5)] 2 0)) = some (6, at_ 8192 [(0, 5)] 0 0) := by decide

/-- D-AR-1 and D-AR-4. -/
theorem test_addRegister :
    (next? (exec (.addRegister .A .B) (((at_ 8192 [] 0 0).setReg .A 0xFFFF).setReg .B 1))).map
      (fun t => (t.reg .A, t.reg .B)) = some (0, 1) ∧
    (next? (exec (.addRegister .PC .B) ((at_ 8192 [] 0 0x10).setReg .B 0x20))).map (fun t => t.reg .PC) =
      some 0x30 := by decide

/-- D-SIG-1 and D-SIG-3. -/
theorem test_signal_halt_and_unbound :
    (next? (step ((at_ 8192 [(0, 0xF0), (1, 0xF0)] 0 0).register 0xF0 .halt))).map (fun t => (t.halt, t.reg .PC)) =
      some (true, 2) ∧
    (codeLeft? (step ((at_ 8192 [(0, 0xF0), (1, 0x01)] 0 0).register 0xF0 .halt))).map (fun x => (x.1, x.2.reg .PC)) =
      some (7, 2) := by decide

/-- D-SIG-4 to D-SIG-7: a failing handler's write stays; a handler may write PC; it cannot clear halt; it sees PC
advanced. -/
theorem test_signal_handlers :
    (codeLeft? (step ((at_ 8192 [(0, 0xF0), (1, 0x10)] 0 0).register 0x10 (.script [.setReg .C 7] (some 3))))).map
      (fun x => (x.1, x.2.reg .C, x.2.reg .PC)) = some (8, 7, 2) ∧
    (next? (step ((at_ 8192 [(0, 0xF0), (1, 0x20)] 0 0).register 0x20 (.script [.setReg .PC 0x100] none)))).map
      (fun t => t.reg .PC) = some 0x100 ∧
    (next? (step { (at_ 8192 [(0, 0xF0), (1, 0x30)] 0 0).register 0x30 (.script [.setHalt false] none) with
      halt := true })).map (fun t => t.halt) = some true ∧
    (next? (step ((at_ 8192 [(0, 0xF0), (1, 0x40)] 0 0).register 0x40 (.script [.copyReg .A .PC] none)))).map
      (fun t => t.reg .A) = some 2 := by decide

/-- D-STEP-4 and D-STEP-5: decoder failures after the advance. -/
theorem test_decoder_faults :
    codeLeft? (step (at_ 8192 [(0x10, 4)] 0 0x10)) = some (2, at_ 8192 [(0x10, 4)] 0 0x12) ∧
    codeLeft? (step (at_ 8192 [(0x10, 2), (0x11, 9)] 0 0x10)) = some (3, at_ 8192 [(0x10, 2), (0x11, 9)] 0 0x12) := by
  decide

/-- D-MEM-1, 2, 8, 10, 11, 13, 14. -/
theorem test_memory_vectors :
    Memory.read16 ⟨8192, [(8190, 0xEF), (8191, 0xBE)]⟩ 8190 = .ok 0xBEEF ∧
    Memory.read16 ⟨8192, []⟩ 8191 = .error (.memReadFault 8191) ∧
    Memory.read16 ⟨8192, []⟩ 0xFFFF = .error (.memReadFault 0xFFFF) ∧
    Memory.load ⟨8192, []⟩ 8190 [1, 2] = .ok ⟨8192, [(8190, 1), (8191, 2)]⟩ ∧
    Memory.load ⟨8192, []⟩ 8190 [1, 2, 3] = .error (.loadOutOfBounds 8190 3) ∧
    Memory.load ⟨8192, []⟩ 8192 [] = .ok ⟨8192, []⟩ ∧
    Memory.read16 ⟨8192, [(3, 1), (4, 2)]⟩ 3 = .ok 0x0201 := by decide

/-! ## Witnesses: concrete states and operands that meet each obligation's hypotheses -/

theorem witness_ConstructionGivesResetValues : 8191 < (State.construct 8192 .ignore).mem.capacity := by decide

theorem witness_EveryStepKeepsWellFormed :
    (at_ 8 [(0, 1), (1, 9)] 0 0).wf ∧ (next? (step (at_ 8 [(0, 1), (1, 9)] 0 0))).isSome ∧
    (at_ 8 [(0, 3)] 2 0).wf ∧ (fault? (step (at_ 8 [(0, 3)] 2 0))).isSome := by decide

theorem witness_ReachableStatesAreWellFormed : Reachable State.reset :=
  ⟨8192, .ignore, [], 0, [], [], State.reset, rfl, .refl _⟩

theorem witness_HaltNeverRevertsAndOnlySignalSetsIt :
    ({ at_ 8 [] 0 0 with halt := true } : State).halt = true ∧
    (after ((at_ 8 [(0, 0xF0), (1, 0xF0)] 0 0).register 0xF0 .halt)).halt ≠
      ((at_ 8 [(0, 0xF0), (1, 0xF0)] 0 0).register 0xF0 .halt).halt ∧
    (next? (exec (.signal 1) ((at_ 8 [] 0 0).register 1 .halt))).map (fun t => t.halt) = some true ∧
    (at_ 8 [] 0 0).load 6 [1, 2] = .ok (at_ 8 [(6, 1), (7, 2)] 0 0) ∧
    (at_ 8 [] 0 0).hostWrite8 7 1 = .ok (at_ 8 [(7, 1)] 0 0) ∧
    (at_ 8 [] 0 0).hostWrite16 6 0x0201 = .ok (at_ 8 [(6, 1), (7, 2)] 0 0) := by decide

theorem witness_MemoryIsDeterminedByItsBytes :
    (((Memory.mk 4 []).setByte 2 6).setByte 1 5).wf ∧ (((Memory.mk 4 []).setByte 1 5).setByte 2 6).wf ∧
    ∀ a < 4, (((Memory.mk 4 []).setByte 2 6).setByte 1 5).byte a = (((Memory.mk 4 []).setByte 1 5).setByte 2 6).byte a := by
  decide

theorem witness_DecodeInvertsEncode :
    Instr.signal 0xF0 ≠ .addRegister .A .A ∧ decode .ignore 0xF702 = .ok (.popRegister .FLAGS) ∧
    decode .reject 0x0702 = .ok (.popRegister .FLAGS) ∧ reservedField (highByte 0x0702) = 0 ∧
    decode .ignore 0x0003 = .ok .addStack ∧ highByte 0x0003 = 0 := by decide

theorem witness_PopRegisterFieldUnderBothPolicies :
    (0xF7 : Byte).toNat % 16 < 8 ∧ 8 ≤ (0x18 : Byte).toNat % 16 ∧ (0x07 : Byte).toNat < 8 ∧ 8 ≤ (0x08 : Byte).toNat := by
  decide

theorem witness_AddRegisterIsReachedByTheExecutePortOnly : lowByte 0xFF04 = 0x04 := by decide

theorem witness_MemoryPrimitivesAreBoundedAndLittleEndian :
    (Memory.mk 8192 []).capacity ≤ 8192 ∧ (Memory.mk 8192 []).capacity ≤ 8191 + 1 ∧
    8190 + 1 < (Memory.mk 8192 []).capacity ∧ (Memory.mk 65536 []).capacity ≤ 65536 := by decide

theorem witness_MixedWidthAccessesAgree : 8190 + 1 < (Memory.mk 8192 []).capacity := by decide

theorem witness_BulkLoadCopiesInOrderOrFails :
    (at_ 8192 [] 0 0).mem.capacity < 8190 + [(1 : Byte), 2, 3].length ∧
    8190 + [(1 : Byte), 2].length ≤ (at_ 8192 [] 0 0).mem.capacity ∧ 1 < [(1 : Byte), 2].length := by decide

theorem witness_RegistrationOverwritesExactlyOneCode :
    HandlerTable.find (((at_ 8 [] 0 0).register 5 .halt).register 5 (.host 1)).handlers 5 = some (.host 1) ∧
    (4 : Byte) ≠ 5 := by decide

theorem witness_RegisterAndLoadCommute :
    (at_ 8 [] 0 0).load 6 [1, 2] = .ok (at_ 8 [(6, 1), (7, 2)] 0 0) ∧
    (at_ 8 [] 0 0).load 7 [1, 2] = .error (.loadOutOfBounds 7 2) := by decide

theorem witness_StepRunsTheDecodedInstruction :
    (at_ 8 [] 0 7).mem.capacity ≤ ((at_ 8 [] 0 7).reg .PC).toNat + 1 ∧
    ((at_ 8 [] 0 6).reg .PC).toNat + 1 < (at_ 8 [] 0 6).mem.capacity ∧
    decode (at_ 8 [] 0 6).popReserved 0 = .ok .nop ∧ (at_ 8 [] 0 6).mem.read16 6 = .ok 0 ∧
    (at_ 8 [(6, 4)] 0 6).mem.read16 6 = .ok 4 ∧ decode .ignore 4 = .error (.unknownOpcode 4) ∧
    (at_ 8 [(6, 2), (7, 8)] 0 6).mem.read16 6 = .ok 0x0802 ∧
    decode .ignore 0x0802 = .error (.invalidRegister 8) := by decide

theorem witness_StepDoesNotReadHalt :
    fetched (at_ 8 [(0, 1), (1, 9)] 0 0) = some (.push 9) ∧ (next? (step (at_ 8 [(0, 1), (1, 9)] 0 0))).isSome ∧
    fetched (at_ 8 [(0, 3)] 2 0) = some .addStack ∧ (fault? (step (at_ 8 [(0, 3)] 2 0))).isSome := by decide

theorem witness_PcChangesOnlyByAdvanceOrTransfer :
    fetched (at_ 8 [(0, 2), (1, 5), (4, 6)] 6 0) = some (.popRegister .PC) ∧
    (next? (step (at_ 8 [(0, 2), (1, 5), (4, 6)] 6 0))).map (fun t => t.reg .PC) = some 6 ∧
    (6 : Word) ≠ (at_ 8 [(0, 2), (1, 5), (4, 6)] 6 0).reg .PC + 2 := by decide

theorem witness_OrdinaryCellsHaveNoOtherWriter :
    (next? (exec (.popRegister .FLAGS) (at_ 8 [(0, 7)] 2 0))).map (fun t => t.reg .FLAGS) = some 7 ∧
    (7 : Word) ≠ (at_ 8 [(0, 7)] 2 0).reg .FLAGS := by decide

theorem witness_PushOverItsOwnWordIsSeenByTheNextFetchOnly :
    fetched (at_ 8 [(6, 1), (7, 9)] 6 6) = some (.push 9) ∧
    (at_ 8 [(6, 1), (7, 9)] 6 6).reg .SP = (at_ 8 [(6, 1), (7, 9)] 6 6).reg .PC := by decide

theorem witness_ZeroBytesAreASlideOfNops :
    (State.reset.reg .PC).toNat + 2 * 4096 ≤ State.reset.mem.capacity ∧ (State.reset.reg .PC).toNat + 2 * 4096 < 65536 ∧
    ∀ a, State.reset.mem.byte a = 0 := ⟨by decide, by decide, fun _ => rfl⟩

theorem witness_RunsEndHaltedOrFaultedForGood :
    (∃ t, runLoop 1 ((at_ 8 [(0, 0xF0), (1, 1)] 0 0).register 1 .halt) = .halted t) ∧
    (∃ f, runLoop 5 (at_ 8 [] 0 0) = .faulted f) ∧ (∃ t, runLoop 4 (at_ 8 [] 0 0) = .running t) ∧
    LoopsTo 1 (at_ 8 [] 0 0) (at_ 8 [] 0 2) :=
  ⟨⟨_, rfl⟩, ⟨_, rfl⟩, ⟨_, rfl⟩, .succ _ _ _ _ rfl rfl (.zero _)⟩

theorem witness_StraightLineCodeIsNotOverwrittenAhead :
    (at_ 65535 [(6, 1), (7, 9)] 6 6).mem.capacity ≤ 65535 ∧ StraightLine (at_ 65535 [(6, 1), (7, 9)] 6 6) ∧
    fetched (at_ 65535 [(6, 1), (7, 9)] 6 6) = some (.push 9) ∧ (next? (step (at_ 65535 [(6, 1), (7, 9)] 6 6))).isSome :=
  ⟨by decide, trivial, by decide, by decide⟩

theorem witness_Push16WritesThenMovesSp :
    (at_ 8192 [] 8191 0).mem.capacity ≤ ((at_ 8192 [] 8191 0).reg .SP).toNat + 1 ∧
    ((at_ 8192 [] 8190 0).reg .SP).toNat + 1 < (at_ 8192 [] 8190 0).mem.capacity ∧
    (at_ 65536 [] 0xFFFE 0).mem.capacity = 65536 ∧
    ((at_ 65536 [] 0xFFFE 0).reg .SP).toNat + 1 < (at_ 65536 [] 0xFFFE 0).mem.capacity := by decide

theorem witness_Pop16ChecksThenReads :
    ((at_ 8192 [] 1 0).reg .SP).toNat < 2 ∧ (at_ 8192 [] 8193 0).mem.capacity < ((at_ 8192 [] 8193 0).reg .SP).toNat ∧
    2 ≤ ((at_ 8192 [] 2 0).reg .SP).toNat ∧ ((at_ 8192 [] 8192 0).reg .SP).toNat ≤ (at_ 8192 [] 8192 0).mem.capacity := by
  decide

/-- D-ST-1 and D-ST-10 among them. -/
theorem witness_PushThenPopGivesTheValueBack :
    ((at_ 65535 [] 0xFFFD 0).reg .SP).toNat + 1 < (at_ 65535 [] 0xFFFD 0).mem.capacity ∧
    ((at_ 65535 [] 0xFFFD 0).reg .SP).toNat ≤ 0xFFFD ∧ 65536 ≤ (at_ 65536 [] 0xFFFE 0).mem.capacity ∧
    (at_ 65536 [] 0xFFFE 0).reg .SP = 0xFFFE ∧ ((at_ 8 [] 1 0).reg .SP).toNat < 2 := by decide

theorem witness_NopOnlyAdvances : fetched (at_ 8 [(7, 0x55)] 0 6) = some .nop := by decide

theorem witness_PushStoresTheZeroExtendedImmediate :
    ((at_ 8192 [] 8190 0).reg .SP).toNat + 1 < (at_ 8192 [] 8190 0).mem.capacity ∧
    (at_ 8192 [] 8191 0).mem.capacity ≤ ((at_ 8192 [] 8191 0).reg .SP).toNat + 1 := by decide

theorem witness_PopRegisterStoresThePoppedWord :
    2 ≤ ((at_ 8192 [] 8192 0).reg .SP).toNat ∧ ((at_ 8192 [] 8192 0).reg .SP).toNat ≤ (at_ 8192 [] 8192 0).mem.capacity ∧
    Reg.A ≠ .SP ∧ ((at_ 8192 [] 1 0).reg .SP).toNat < 2 ∧
    (at_ 8192 [] 8193 0).mem.capacity < ((at_ 8192 [] 8193 0).reg .SP).toNat := by decide

theorem witness_AddStackOutcomesBySp :
    ((at_ 8192 [] 1 0).reg .SP).toNat < 2 ∧ 8192 < ((at_ 8192 [] 8193 0).reg .SP).toNat ∧
    ((at_ 8192 [] 3 0).reg .SP).toNat = 3 ∧ 4 ≤ ((at_ 8192 [] 4 0).reg .SP).toNat ∧
    ((at_ 8192 [] 8192 0).reg .SP).toNat ≤ (at_ 8192 [] 8192 0).mem.capacity ∧
    pop16 (at_ 8192 [] 4 0) = .ok (0, at_ 8192 [] 2 0) ∧ pop16 (at_ 8192 [] 2 0) = .ok (0, at_ 8192 [] 0 0) := by decide

theorem witness_SignalRunsTheBoundHandler :
    HandlerTable.find (at_ 8 [] 0 0).handlers 1 = none ∧
    HandlerTable.find ((at_ 8 [] 0 0).register 1 .halt).handlers 1 = some .halt ∧
    (Handler.halt.body (at_ 8 [] 0 0).view).2 = .ok ∧
    HandlerTable.find ((at_ 8 [] 0 0).register 2 (.script [] (some 3))).handlers 2 = some (.script [] (some 3)) ∧
    ((Handler.script [] (some 3)).body (at_ 8 [] 0 0).view).2 = .err (.named 3) :=
  ⟨rfl, rfl, rfl, rfl, rfl⟩

theorem witness_AnyHandlerIsMergedAndItsFailureKeepsItsWrites :
    (Handler.halt.body (at_ 8 [] 0 0).view).2 = .ok ∧
    ((Handler.script [.setHalt true] (some 3)).body (at_ 8 [] 0 0).view).2 = .err (.named 3) ∧
    ((Handler.script [.setHalt true] (some 3)).body (at_ 8 [] 0 0).view).1.halt = true := ⟨rfl, rfl, rfl⟩

theorem witness_HaltHandlerOnlySetsHalt :
    (∃ s, driverBoot [0xF0, 0xF0] = .ok s) ∧
    HandlerTable.find ((at_ 8 [(0, 0xF0), (1, 1)] 0 0).register 1 .halt).handlers 1 = some .halt ∧
    fetched ((at_ 8 [(0, 0xF0), (1, 1)] 0 0).register 1 .halt) = some (.signal 1) :=
  ⟨⟨_, rfl⟩, by decide, by decide⟩

theorem witness_HandlerSeesTheAdvancedPc :
    fetched ((at_ 8 [(6, 0xF0), (7, 1)] 0 6).register 1 (.host 0)) = some (.signal 1) ∧
    HandlerTable.find ((at_ 8 [(6, 0xF0), (7, 1)] 0 6).register 1 (.host 0)).handlers 1 = some (.host 0) := by decide

theorem witness_HostRepliesReachEveryView :
    (at_ 8 [] 0 0).view.mem.wf ∧ (at_ 8 [(7, 9)] 4 2).view.mem.wf ∧
    (at_ 8 [(7, 9)] 4 2).view.mem.capacity = (at_ 8 [] 0 0).view.mem.capacity := by decide

theorem witness_NonStoringOperationsFrame :
    (next? (exec .nop (at_ 8 [] 0 0))).isSome ∧ (next? (exec (.popRegister .SP) (at_ 8 [(0, 7)] 2 0))).isSome ∧
    (next? (exec (.addRegister .PC .PC) (at_ 8 [] 0 2))).isSome := by decide

theorem witness_StoringOperationsFrame :
    (next? (exec (.push 3) (at_ 8 [] 6 0))).isSome ∧ (next? (exec .addStack (at_ 8 [] 8 0))).isSome := by decide

theorem witness_FetchFaultChangesNothing :
    (at_ 8 [] 0 7).mem.capacity ≤ ((at_ 8 [] 0 7).reg .PC).toNat + 1 ∧
    fault? (step (at_ 8 [] 0 7)) = some (.fetchFault 7 (at_ 8 [] 0 7)) := by decide

theorem witness_UnknownOpcodeOnlyAdvances :
    Machine.fetch (at_ 8 [(6, 0xEF)] 0 6) = .ok 0x00EF ∧
    lowByte 0x00EF ∉ [(0x00 : Byte), 0x01, 0x02, 0x03, 0xF0] ∧
    fault? (step (at_ 8 [(6, 0xEF)] 0 6)) = some (.unknownOpcode 0xEF (at_ 8 [(6, 0xEF)] 0 8)) := by decide

theorem witness_InvalidRegisterOnlyAdvances :
    Machine.fetch (at_ 8 [(0, 2), (1, 0x18)] 0 0) = .ok 0x1802 ∧ lowByte 0x1802 = 0x02 ∧
    (at_ 8 [] 0 0).popReserved = .ignore ∧ 8 ≤ (highByte 0x1802).toNat % 16 ∧
    ({ at_ 8 [(0, 2), (1, 8)] 0 0 with popReserved := .reject } : State).popReserved = .reject ∧
    Machine.fetch { at_ 8 [(0, 2), (1, 8)] 0 0 with popReserved := .reject } = .ok 0x0802 ∧
    8 ≤ (highByte 0x0802).toNat ∧
    fault? (step (at_ 8 [(0, 2), (1, 0x18)] 0 0)) =
      some (.invalidRegister 8 (at_ 8 [(0, 2), (1, 0x18)] 0 2)) := by decide

theorem witness_MemReadFaultComesFromTheFirstPop :
    fetched (at_ 8 [(0, 2)] 9 0) = some (.popRegister .A) ∧ fetched (at_ 8 [(0, 3)] 9 0) = some .addStack ∧
    2 ≤ ((at_ 8 [(0, 3)] 9 0).reg .SP).toNat ∧ (at_ 8 [(0, 3)] 9 0).mem.capacity < ((at_ 8 [(0, 3)] 9 0).reg .SP).toNat ∧
    fault? (step (at_ 8 [(0, 3)] 9 0)) = some (.memReadFault 7 (at_ 8 [(0, 3)] 9 2)) := by decide

theorem witness_MemWriteFaultComesFromPushOnly :
    fetched (at_ 8 [(0, 1)] 7 0) = some (.push 0) ∧
    (at_ 8 [(0, 1)] 7 0).mem.capacity ≤ ((at_ 8 [(0, 1)] 7 0).reg .SP).toNat + 1 ∧
    fault? (step (at_ 8 [(0, 1)] 7 0)) = some (.memWriteFault 7 (at_ 8 [(0, 1)] 7 2)) := by decide

theorem witness_StackUnderflowBeforeAnyArithmetic :
    fetched (at_ 8 [(0, 2)] 1 0) = some (.popRegister .A) ∧ ((at_ 8 [(0, 2)] 1 0).reg .SP).toNat < 2 ∧
    fetched (at_ 8 [(0, 3)] 3 0) = some .addStack ∧ ((at_ 8 [(0, 3)] 3 0).reg .SP).toNat = 3 ∧
    fault? (step (at_ 8 [(0, 3)] 3 0)) = some (.stackUnderflow 1 (at_ 8 [(0, 3)] 1 2)) := by decide

theorem witness_SignalFaultsByLookupAndByHandler :
    fetched (at_ 8 [(0, 0xF0)] 0 0) = some (.signal 0) ∧ HandlerTable.find (at_ 8 [(0, 0xF0)] 0 0).handlers 0 = none ∧
    codeLeft? (step (at_ 8 [(0, 0xF0)] 0 0)) = some (7, at_ 8 [(0, 0xF0)] 0 2) ∧
    fetched ((at_ 8 [(0, 0xF0)] 0 0).register 0 (.script [] (some 3))) = some (.signal 0) ∧
    (Handler.script [] (some 3)).body (advance (at_ 8 [(0, 0xF0)] 0 0)).view =
      ((advance (at_ 8 [(0, 0xF0)] 0 0)).view, .err (.named 3)) ∧
    fault? (step ((at_ 8 [(0, 0xF0)] 0 0).register 0 (.script [] (some 3)))) =
      some (.handlerFailure (.named 3) ((at_ 8 [(0, 0xF0)] 0 2).register 0 (.script [] (some 3)))) :=
  ⟨by decide, rfl, by decide, by decide, rfl, rfl⟩

theorem witness_FaultsArePrecise :
    (codeLeft? (step (at_ 8 [] 0 7))).map Prod.fst = some 1 ∧
    (codeLeft? (step (at_ 8 [(0, 3)] 2 0))).map Prod.fst = some 6 ∧
    (codeLeft? (step ((at_ 8 [(0, 0xF0)] 0 0).register 0 (.script [.store8 5 1] (some 3))))).map
      (fun x => (x.1, x.2.mem.byte 5)) = some (8, 1) := by decide

theorem witness_StatusCodesFollowTheTable :
    (transaction (at_ 8 [] 0 6)).2.code = some 0 ∧ (transaction (at_ 8 [] 0 7)).2.code = some 1 := by decide

end Sys2Proof.Tests
end

section
/-! PROOFS. The state construction leaves (R33), one lemma per piece of state. -/

namespace Sys2Proof.Machine

/-! ## Reads within the capacity -/

theorem read8_ok (m : Memory) (addr : Nat) (h : addr < m.capacity) : m.read8 addr = .ok (m.byte addr) := by
  rw [Memory.read8, if_neg (by omega)]

/-! ## `State.construct` (R33) -/

@[simp] theorem construct_reg (n : Nat) (p : PopReserved) (r : Reg) : (State.construct n p).reg r = 0 := by
  cases r <;> rfl

@[simp] theorem construct_mem_capacity (n : Nat) (p : PopReserved) : (State.construct n p).mem.capacity = n := rfl

/-- No byte is listed, so every one reads 0x00. -/
@[simp] theorem construct_mem_byte (n : Nat) (p : PopReserved) (a : Nat) : (State.construct n p).mem.byte a = 0 := rfl

@[simp] theorem construct_halt (n : Nat) (p : PopReserved) : (State.construct n p).halt = false := rfl

@[simp] theorem construct_find (n : Nat) (p : PopReserved) (code : Byte) :
    HandlerTable.find (State.construct n p).handlers code = none := rfl

theorem construct_read8 (n : Nat) (p : PopReserved) (a : Nat) (h : a < n) :
    (State.construct n p).mem.read8 a = .ok 0 := by
  rw [read8_ok _ a h, construct_mem_byte]

/-- Settles O1, piece by piece of the state. -/
theorem constructionGivesResetValues : Obligations.ConstructionGivesResetValues := fun n p =>
  ⟨construct_reg n p, construct_mem_capacity n p, construct_read8 n p, construct_halt n p, construct_find n p⟩

end Sys2Proof.Machine
end

section
/-! PROOFS. The memory primitives (R36 to R40) and the bulk load (R44), within bounds and beyond them. -/

namespace Sys2Proof.Machine

/-! ## The halves of a word as numbers (R39) -/

theorem lowByte_toNat (w : Word) : (lowByte w).toNat = w.toNat % 256 := by
  simp [lowByte, BitVec.extractLsb'_toNat]

theorem highByte_toNat (w : Word) : (highByte w).toNat = w.toNat / 256 := by
  have hw := w.isLt
  simp only [highByte, BitVec.extractLsb'_toNat, Nat.shiftRight_eq_div_pow]
  omega

/-- The concatenation of the model is R38's formula. -/
theorem wordOfBytes_eq_or_shift (lo hi : Byte) :
    wordOfBytes lo hi = lo.zeroExtend 16 ||| hi.zeroExtend 16 <<< 8 := by
  refine BitVec.eq_of_getLsbD_eq fun i hi16 => ?_
  simp only [wordOfBytes_getLsbD, BitVec.getLsbD_or, BitVec.getLsbD_shiftLeft, BitVec.getLsbD_setWidth]
  by_cases hlow : i < 8
  · simp [hlow, hi16]
  · have hoff : lo.getLsbD i = false := BitVec.getLsbD_of_ge lo i (by omega)
    have hin : i - 8 < 16 := by omega
    simp [hlow, hoff, hin, hi16]

/-! ## One byte beyond the capacity (R36, R37) -/

theorem read8_error (m : Memory) (addr : Nat) (h : m.capacity ≤ addr) : m.read8 addr = .error (.memReadFault addr) := by
  rw [Memory.read8, if_pos h]

theorem write8_error (m : Memory) (addr : Nat) (v : Byte) (h : m.capacity ≤ addr) :
    m.write8 addr v = .error (.memWriteFault addr) := by
  rw [Memory.write8, if_pos h]

/-! ## Two bytes within the capacity (R38, R39) -/

theorem read16_eq_or_shift (m : Memory) (addr : Nat) (h : addr + 1 < m.capacity) :
    m.read16 addr = .ok ((m.byte addr).zeroExtend 16 ||| (m.byte (addr + 1)).zeroExtend 16 <<< 8) := by
  rw [read16_ok m addr h, wordOfBytes_eq_or_shift]

/-- A two-byte write succeeds, with the bytes it sets given as numbers and every other byte unchanged. -/
theorem write16_sets_two_bytes (m : Memory) (addr : Nat) (v : Word) (h : addr + 1 < m.capacity) :
    ∃ m', m.write16 addr v = .ok m' ∧ m'.capacity = m.capacity ∧ (m'.byte addr).toNat = v.toNat % 256 ∧
      (m'.byte (addr + 1)).toNat = v.toNat / 256 ∧ ∀ a, a ≠ addr → a ≠ addr + 1 → m'.byte a = m.byte a := by
  have hw := write16_ok m addr v h
  obtain ⟨-, hcap, hlo, hhi, hframe, -⟩ := write16_spec m _ addr v hw
  exact ⟨_, hw, hcap, by rw [hlo, lowByte_toNat], by rw [hhi, highByte_toNat], hframe⟩

/-- Settles O16: one clause per primitive and side of its bound; the access at 0xFFFF is beyond the bound of every
capacity up to 65536. -/
theorem memoryPrimitivesAreBoundedAndLittleEndian : Obligations.MemoryPrimitivesAreBoundedAndLittleEndian :=
  fun m addr v b =>
    ⟨fun h => ⟨read8_error m addr h, write8_error m addr b h⟩,
      fun h => ⟨read16_error m addr h, write16_error m addr v h⟩,
      fun h => ⟨read16_eq_or_shift m addr h, write16_sets_two_bytes m addr v h⟩,
      fun h => ⟨read16_error m 0xFFFF h, write16_error m 0xFFFF v h⟩⟩

/-! ## The bulk load (R44) -/

theorem load_error (s : State) (origin : Nat) (bytes : List Byte) (h : s.mem.capacity < origin + bytes.length) :
    s.load origin bytes = .error (.loadOutOfBounds origin bytes.length) := by
  rw [State.load, Memory.load, if_pos h]

theorem load_ok (s : State) (origin : Nat) (bytes : List Byte) (h : origin + bytes.length ≤ s.mem.capacity) :
    s.load origin bytes = .ok { s with mem := s.mem.setBytes origin bytes } := by
  rw [State.load, Memory.load, if_neg (by omega)]

theorem byte_setBytes_inside (m : Memory) (origin : Nat) (bytes : List Byte) (i : Nat) (h : i < bytes.length) :
    (m.setBytes origin bytes).byte (origin + i) = bytes[i] := by
  simp [byte_setBytes, h]

theorem byte_setBytes_outside (m : Memory) (origin : Nat) (bytes : List Byte) (a : Nat)
    (h : a < origin ∨ origin + bytes.length ≤ a) : (m.setBytes origin bytes).byte a = m.byte a := by
  rw [byte_setBytes, dif_neg (by omega)]

/-- Settles O18: a load in bounds replaces the memory by the one `setBytes` gives, and nothing else of the state. -/
theorem bulkLoadCopiesInOrderOrFails : Obligations.BulkLoadCopiesInOrderOrFails := fun s origin bytes =>
  ⟨load_error s origin bytes, fun h =>
    ⟨{ s with mem := s.mem.setBytes origin bytes }, load_ok s origin bytes h,
      byte_setBytes_inside s.mem origin bytes, byte_setBytes_outside s.mem origin bytes,
      setBytes_capacity s.mem origin bytes, fun _ => rfl, rfl, rfl, rfl⟩⟩

end Sys2Proof.Machine
end

section
/-! PROOFS. The decoder and the encoder (R58 to R70): what each opcode decodes to, what a word that decodes must be,
the round trip, and how many words decode. -/

namespace Sys2Proof.Machine

/-! ## What each opcode decodes to (R58, R61, R64) -/

@[simp] theorem decode_nop (p : PopReserved) (hi : Byte) : decode p (wordOfBytes 0x00 hi) = .ok .nop := by
  simp [decode]

@[simp] theorem decode_push (p : PopReserved) (hi : Byte) : decode p (wordOfBytes 0x01 hi) = .ok (.push hi) := by
  simp [decode]

@[simp] theorem decode_pop (p : PopReserved) (hi : Byte) : decode p (wordOfBytes 0x02 hi) = decodePop p hi := by
  simp [decode]

@[simp] theorem decode_addStack (p : PopReserved) (hi : Byte) : decode p (wordOfBytes 0x03 hi) = .ok .addStack := by
  simp [decode]

@[simp] theorem decode_signal (p : PopReserved) (hi : Byte) : decode p (wordOfBytes 0xF0 hi) = .ok (.signal hi) := by
  simp [decode]

/-- The opcodes that have a defined case (R60). -/
def definedOpcodes : List Byte := [0x00, 0x01, 0x02, 0x03, 0xF0]

theorem decode_unknownOpcode (p : PopReserved) (lo hi : Byte) (h : lo ∉ definedOpcodes) :
    decode p (wordOfBytes lo hi) = .error (.unknownOpcode lo) := by
  simp only [definedOpcodes, List.mem_cons, List.not_mem_nil, or_false, not_or] at h
  obtain ⟨hnop, hpush, hpop, hadd, hsignal⟩ := h
  rw [decode, lowByte_wordOfBytes, if_neg hnop, if_neg hpush, if_neg hpop, if_neg hadd, if_neg hsignal]

/-- Settles O11: the operand byte is not read for these two opcodes. -/
theorem nopAndAddStackIgnoreTheOperandByte : Obligations.NopAndAddStackIgnoreTheOperandByte :=
  fun p hi => ⟨decode_nop p hi, decode_addStack p hi⟩

/-! ## What a word that decodes must be -/

/-- An operand byte gives PopRegister exactly when its index names the register and the policy lets its reserved bits
pass (R62, R63). -/
theorem decodePop_eq_ok_iff (p : PopReserved) (hi : Byte) (i : Instr) :
    decodePop p hi = .ok i ↔
      (p = .reject → reservedField hi = 0) ∧ ∃ r, regOfIndex (indexField hi) = some r ∧ i = .popRegister r := by
  unfold decodePop
  by_cases hpass : p = .reject → reservedField hi = 0
  · rw [if_neg fun hres => hres.2 (hpass hres.1)]
    cases regOfIndex (indexField hi) with
    | none => simp
    | some r => simpa using ⟨fun h => ⟨hpass, h.symm⟩, fun h => h.2.symm⟩
  · rw [if_pos (Classical.not_imp.mp hpass)]
    simp only [reduceCtorEq, hpass, false_and]

theorem decode_eq_ok_cases {p : PopReserved} {lo hi : Byte} {i : Instr} (h : decode p (wordOfBytes lo hi) = .ok i) :
    (lo = 0x00 ∧ i = .nop) ∨ (lo = 0x01 ∧ i = .push hi) ∨ (lo = 0x02 ∧ decodePop p hi = .ok i) ∨
      (lo = 0x03 ∧ i = .addStack) ∨ (lo = 0xF0 ∧ i = .signal hi) := by
  have hlo : lo ∈ definedOpcodes := by
    by_contra hlo
    cases (decode_unknownOpcode p lo hi hlo).symm.trans h
  simp only [definedOpcodes, List.mem_cons, List.not_mem_nil, or_false] at hlo
  obtain rfl | rfl | rfl | rfl | rfl := hlo
  · cases (decode_nop p hi).symm.trans h; simp
  · cases (decode_push p hi).symm.trans h; simp
  · simp [(decode_pop p hi).symm.trans h]
  · cases (decode_addStack p hi).symm.trans h; simp
  · cases (decode_signal p hi).symm.trans h; simp

theorem decode_ne_addRegister (p : PopReserved) (w : Word) (r1 r2 : Reg) : decode p w ≠ .ok (.addRegister r1 r2) := by
  rw [← wordOfBytes_low_high w]
  intro h
  obtain ⟨-, hi⟩ | ⟨-, hi⟩ | ⟨-, hpop⟩ | ⟨-, hi⟩ | ⟨-, hi⟩ := decode_eq_ok_cases h
  case inr.inr.inl =>
    obtain ⟨-, r, -, hi⟩ := (decodePop_eq_ok_iff ..).mp hpop
    cases hi
  all_goals cases hi

/-! ## The round trip (R69, R70) -/

theorem decodePop_indexOf (p : PopReserved) (r : Reg) :
    decodePop p ((indexOf r).zeroExtend 8) = .ok (.popRegister r) := by
  have hres : reservedField ((indexOf r).zeroExtend 8) = 0 := by cases r <;> rfl
  have hidx : indexField ((indexOf r).zeroExtend 8) = indexOf r := by cases r <;> rfl
  rw [decodePop_eq_ok_iff, hidx]
  exact ⟨fun _ => hres, r, regOfIndex_indexOf r, rfl⟩

theorem exists_encode (i : Instr) (h : ∀ r1 r2, i ≠ .addRegister r1 r2) : ∃ w, encode i = some w := by
  cases i with
  | addRegister r1 r2 => exact absurd rfl (h r1 r2)
  | nop | push | popRegister | addStack | signal => exact ⟨_, rfl⟩

theorem decode_of_encode (p : PopReserved) {i : Instr} {w : Word} (h : encode i = some w) : decode p w = .ok i := by
  cases i with
  | addRegister r1 r2 => cases h
  | nop => cases h; exact decode_nop p _
  | push imm => cases h; exact decode_push p imm
  | popRegister r => cases h; exact (decode_pop p _).trans (decodePop_indexOf p r)
  | addStack => cases h; exact decode_addStack p _
  | signal code => cases h; exact decode_signal p code

theorem zeroExtend_indexField (hi : Byte) (h : reservedField hi = 0) : (indexField hi).zeroExtend 8 = hi := by
  revert hi; decide

/-- A word that decodes, its ignored and reserved bits 0, is the encoding of what it decodes to. -/
theorem encode_of_decode_canonical {p : PopReserved} {w : Word} {i : Instr} (h : decode p w = .ok i)
    (hign : i = .nop ∨ i = .addStack → highByte w = 0)
    (hres : ∀ r, i = .popRegister r → reservedField (highByte w) = 0) : encode i = some w := by
  rw [← wordOfBytes_low_high w] at h ⊢
  obtain ⟨hlo, rfl⟩ | ⟨hlo, rfl⟩ | ⟨hlo, hpop⟩ | ⟨hlo, rfl⟩ | ⟨hlo, rfl⟩ := decode_eq_ok_cases h
  · rw [hlo, hign (.inl rfl), encode]
  · rw [hlo, encode]
  · obtain ⟨-, r, hr, rfl⟩ := (decodePop_eq_ok_iff ..).mp hpop
    rw [hlo, encode, indexOf_of_regOfIndex _ r hr, zeroExtend_indexField _ (hres r rfl)]
  · rw [hlo, hign (.inr rfl), encode]
  · rw [hlo, encode]

/-- Settles O10: encoding then decoding is the identity, and a canonical word is the encoding of what it
decodes to. -/
theorem decodeInvertsEncode : Obligations.DecodeInvertsEncode := by
  refine ⟨fun p i hi => ?_, fun p w i h => ?_⟩
  · obtain ⟨w, hw⟩ := exists_encode i hi
    exact ⟨w, hw, decode_of_encode p hw⟩
  · obtain ⟨c, hc⟩ := exists_encode i fun r1 r2 hi => decode_ne_addRegister p w r1 r2 (hi ▸ h)
    refine ⟨c, hc, decode_of_encode p hc, fun hign hres => ?_⟩
    exact Option.some.inj (hc.symm.trans (encode_of_decode_canonical h hign hres))

/-! ## How many words decode (R67) -/

/-- The word decodes, to an operation that passes the test. -/
def decodesTo (p : PopReserved) (pred : Instr → Bool) (w : Word) : Bool :=
  match decode p w with
  | .ok i => pred i
  | .error _ => false

theorem decodesTo_ok {p : PopReserved} {w : Word} {i : Instr} (pred : Instr → Bool) (h : decode p w = .ok i) :
    decodesTo p pred w = pred i := by
  rw [decodesTo, h]

theorem decodesTo_error {p : PopReserved} {w : Word} {e : DecodeError} (pred : Instr → Bool)
    (h : decode p w = .error e) : decodesTo p pred w = false := by
  rw [decodesTo, h]

/-- How many of the 256 × 256 words decode to an operation that passes the test. -/
def decodableCount (p : PopReserved) (pred : Instr → Bool) : Nat :=
  ((List.range 256).map fun hi => (List.range 256).countP fun lo =>
    decodesTo p pred (wordOfBytes (BitVec.ofNat 8 lo) (BitVec.ofNat 8 hi))).sum

theorem decodesTo_pop (p : PopReserved) (pred : Instr → Bool) (b : Bool) (hb : ∀ r, pred (.popRegister r) = b)
    (hi : Byte) : decodesTo p pred (wordOfBytes 0x02 hi) = (b && (decodePop p hi).isOk) := by
  cases h : decodePop p hi with
  | error e => rw [decodesTo_error pred ((decode_pop p hi).trans h)]; simp [Except.isOk, Except.toBool]
  | ok i =>
    obtain ⟨-, r, -, rfl⟩ := (decodePop_eq_ok_iff ..).mp h
    rw [decodesTo_ok pred ((decode_pop p hi).trans h), hb]
    simp [Except.isOk, Except.toBool]

/-- How many operand bytes give a PopRegister word that decodes. -/
def popOperandCount (p : PopReserved) : Nat := (List.range 256).countP fun hi => (decodePop p (BitVec.ofNat 8 hi)).isOk

/-- Eight indices name a register, under each of the 16 reserved fields. -/
theorem popOperandCount_ignore : popOperandCount .ignore = 128 := by decide +kernel

/-- Eight indices name a register, under the zero reserved field alone. -/
theorem popOperandCount_reject : popOperandCount .reject = 8 := by decide +kernel

theorem filter_definedOpcodes :
    ((List.range 256).map (BitVec.ofNat 8)).filter (fun lo => decide (lo ∈ definedOpcodes)) = definedOpcodes := by
  decide +kernel

/-- Only the defined opcodes count, each once. -/
theorem countP_bytes_eq_countP_definedOpcodes (q : Byte → Bool) (h : ∀ lo, lo ∉ definedOpcodes → q lo = false) :
    ((List.range 256).countP fun lo => q (BitVec.ofNat 8 lo)) = definedOpcodes.countP q := by
  have honly : (fun lo => q lo && decide (lo ∈ definedOpcodes)) = q := by
    funext lo
    by_cases hlo : lo ∈ definedOpcodes
    · simp [hlo]
    · simp [h lo hlo]
  calc ((List.range 256).countP fun lo => q (BitVec.ofNat 8 lo))
      = ((List.range 256).map (BitVec.ofNat 8)).countP q := List.countP_map.symm
    _ = (((List.range 256).map (BitVec.ofNat 8)).filter fun lo => decide (lo ∈ definedOpcodes)).countP q := by
        rw [List.countP_filter, honly]
    _ = definedOpcodes.countP q := by rw [filter_definedOpcodes]

/-- The words with one operand byte: the four opcodes other than PopRegister's always decode, PopRegister's where its
field allows it. `b` says whether PopRegister passes the test, which must not depend on the register. -/
theorem countP_opcode_bytes (p : PopReserved) (pred : Instr → Bool) (b : Bool) (hb : ∀ r, pred (.popRegister r) = b)
    (hi : Byte) :
    ((List.range 256).countP fun lo => decodesTo p pred (wordOfBytes (BitVec.ofNat 8 lo) hi)) =
      [Instr.nop, .push hi, .addStack, .signal hi].countP pred + (b && (decodePop p hi).isOk).toNat := by
  rw [countP_bytes_eq_countP_definedOpcodes (fun lo => decodesTo p pred (wordOfBytes lo hi))
    fun lo hlo => decodesTo_error pred (decode_unknownOpcode p lo hi hlo)]
  simp only [definedOpcodes, List.countP_cons, List.countP_nil, decodesTo_ok pred (decode_nop p hi),
    decodesTo_ok pred (decode_push p hi), decodesTo_pop p pred b hb hi, decodesTo_ok pred (decode_addStack p hi),
    decodesTo_ok pred (decode_signal p hi), Bool.toNat, Bool.cond_eq_ite]
  omega

/-- A sum of terms that are a constant or one more is the constant part and a count. -/
theorem sum_map_add_toNat {α : Type} (l : List α) (base : Nat) (c : α → Bool) :
    (l.map fun x => base + (c x).toNat).sum = l.length * base + l.countP c := by
  induction l with
  | nil => simp
  | cons x xs ih =>
    rw [List.map_cons, List.sum_cons, ih, List.length_cons, List.countP_cons, Nat.add_mul]
    cases c x <;> simp only [Bool.toNat_true, Bool.toNat_false, if_true, Bool.false_eq_true, if_false] <;> omega

/-- The whole count, where the number `base` of the other four operations that pass the test is the same for every
operand byte. -/
theorem decodableCount_eq (p : PopReserved) (pred : Instr → Bool) (base : Nat) (b : Bool)
    (hbase : ∀ hi, [Instr.nop, .push hi, .addStack, .signal hi].countP pred = base)
    (hb : ∀ r, pred (.popRegister r) = b) :
    decodableCount p pred = 256 * base + if b then popOperandCount p else 0 := by
  simp only [decodableCount, countP_opcode_bytes p pred b hb, hbase]
  rw [sum_map_add_toNat, List.length_range]
  cases b <;> simp [popOperandCount]

theorem decodableCount_all (p : PopReserved) : decodableCount p (fun _ => true) = 1024 + popOperandCount p :=
  decodableCount_eq p _ 4 true (fun _ => rfl) fun _ => rfl

theorem decodableCount_popRegister (p : PopReserved) (pred : Instr → Bool)
    (hother : ∀ hi, [Instr.nop, .push hi, .addStack, .signal hi].countP pred = 0)
    (hpop : ∀ r, pred (.popRegister r) = true) : decodableCount p pred = popOperandCount p := by
  simpa using decodableCount_eq p pred 0 true hother hpop

theorem decodableCount_other (p : PopReserved) (pred : Instr → Bool)
    (hother : ∀ hi, [Instr.nop, .push hi, .addStack, .signal hi].countP pred = 1)
    (hpop : ∀ r, pred (.popRegister r) = false) : decodableCount p pred = 256 := by
  simpa using decodableCount_eq p pred 1 false hother hpop

/-- Settles O13: each of the four other opcodes decodes with all 256 operand bytes, PopRegister's with
`popOperandCount` of them. -/
theorem decodableWordCounts : Obligations.DecodableWordCounts := by
  refine ⟨?_, ?_, ?_, ?_, fun p => ⟨?_, ?_, ?_, ?_⟩⟩
  · exact (decodableCount_all .ignore).trans (by rw [popOperandCount_ignore])
  · exact (decodableCount_popRegister .ignore _ (fun _ => rfl) fun _ => rfl).trans popOperandCount_ignore
  · exact (decodableCount_all .reject).trans (by rw [popOperandCount_reject])
  · exact (decodableCount_popRegister .reject _ (fun _ => rfl) fun _ => rfl).trans popOperandCount_reject
  all_goals exact decodableCount_other p _ (fun _ => rfl) fun _ => rfl

end Sys2Proof.Machine
end

section
/-! PROOFS. The step by phases (R75 to R80), each way it ends given by what the fetch and the decoder answer. -/

namespace Sys2Proof.Machine

/-- The advance changes the field pc only (R76). -/
theorem advance_eq (s : State) : advance s = { s with regs := { s.regs with pc := s.regs.pc + 2 } } := rfl

theorem step_of_fetch_error (s : State) (f : Fault) (h : fetch s = .error f) : step s = .fault f := by
  rw [step, h]

theorem step_of_decode_error (s : State) (w : Word) (e : DecodeError) (h : fetch s = .ok w)
    (hd : decode s.popReserved w = .error e) : step s = .fault (decodeFault e (advance s)) := by
  simp only [step, h, hd]

theorem step_of_decode_ok (s : State) (w : Word) (i : Instr) (h : fetch s = .ok w)
    (hd : decode s.popReserved w = .ok i) : step s = exec i (advance s) := by
  simp only [step, h, hd]

/-- Settles O21: the bound on pc decides the fetch, and in bounds the decoder's answer decides the rest; the two
decoder failures are `decodeFault` at its two constructors. -/
theorem stepRunsTheDecodedInstruction : Obligations.StepRunsTheDecodedInstruction := fun s =>
  ⟨fun hout => step_of_fetch_error s _ (fetch_error s hout),
    fun hin =>
      have hf := fetch_ok s hin
      ⟨_, read16_ok s.mem _ hin, fun o => step_of_decode_error s _ (.unknownOpcode o) hf,
        fun v => step_of_decode_error s _ (.invalidRegister v) hf, fun i => step_of_decode_ok s _ i hf⟩,
    advance_eq s⟩

end Sys2Proof.Machine
end

section
/-! PROOFS. The stack primitives Push16 (R88) and Pop16 (R89), and the law that a pop undoes a push (R94). -/

namespace Sys2Proof.Machine

/-! ## Push16 (R88) -/

/-- The push always leaves sp modulo 65536. -/
theorem push16_sp_toNat (v : Word) (s t : State) (h : push16 v s = .ok t) :
    (t.reg .SP).toNat = ((s.reg .SP).toNat + 2) % 65536 := by
  obtain ⟨-, hsp, -⟩ := push16_spec v s t h
  rw [hsp, toNat_add16_two]

/-- Only at the very top of a memory that fills the address space does the push wrap sp. -/
theorem push16_wraps_only_at_top (v : Word) (s t : State) (h : push16 v s = .ok t)
    (hwrap : (t.reg .SP).toNat ≠ (s.reg .SP).toNat + 2) : 65536 ≤ s.mem.capacity ∧ 0xFFFE ≤ (s.reg .SP).toNat := by
  obtain ⟨hb, -⟩ := push16_spec v s t h
  rw [push16_sp_toNat v s t h] at hwrap
  rw [pushAddr] at hb
  omega

/-- Settles O30: the bound on sp decides the write, and `push16_spec` says what a push in bounds changes. -/
theorem push16WritesThenMovesSp : Obligations.Push16WritesThenMovesSp := fun v s =>
  ⟨push16_error v s, fun hin => by
    have h := push16_ok v s hin
    obtain ⟨-, -, hregs, hlo, hhi, hframe, hhalt, hkeeps⟩ := push16_spec v s _ h
    exact ⟨_, h, push16_sp_toNat v s _ h, (congrArg BitVec.toNat hlo).trans (lowByte_toNat v),
      (congrArg BitVec.toNat hhi).trans (highByte_toNat v), hframe, hregs, hhalt, hkeeps.handlers,
      hkeeps.popReserved, hkeeps.capacity, push16_wraps_only_at_top v s _ h⟩⟩

/-! ## Pop16 (R89) -/

/-- The word Pop16 takes is the one the memory primitive reads at sp - 2. -/
theorem read16_of_pop16 (s t : State) (v : Word) (h : pop16 s = .ok (v, t)) :
    s.mem.read16 ((s.reg .SP).toNat - 2) = .ok v := by
  obtain ⟨-, hlow, hhigh, rfl, -⟩ := pop16_next s t v h
  rw [popAddr_eq s hlow, read16_ok _ _ (by omega)]

/-- Settles O31, by the three cases of sp: below 2, beyond the capacity, and in between. -/
theorem pop16ChecksThenReads : Obligations.Pop16ChecksThenReads := fun s =>
  ⟨pop16_underflow s,
    fun hlow hout => ⟨_, toNat_sub16_two _ hlow, pop16_error s hlow hout⟩,
    fun hlow hin => by
      have h := pop16_ok s hlow hin
      refine ⟨_, _, h, read16_of_pop16 s _ _ h, ?_, ?_⟩
      · rw [reg_setReg_same, toNat_sub16_two _ hlow]
      · rw [reg_setReg_same]⟩

/-! ## Push, then pop (R94) -/

/-- A pop after a push that did not wrap sp gives the pushed word and puts sp back. -/
theorem pop16_of_push16 (v : Word) (s t : State) (h : push16 v s = .ok t) (hnowrap : (s.reg .SP).toNat ≤ 0xFFFD) :
    pop16 t = .ok (v, t.setReg .SP (s.reg .SP)) := by
  obtain ⟨hb, hsp, -, hlo, hhi, -, -, hkeeps⟩ := push16_spec v s t h
  have hspNat : (t.reg .SP).toNat = pushAddr s + 2 := by rw [push16_sp_toNat v s t h, pushAddr]; omega
  have haddr : popAddr t = pushAddr s := by rw [popAddr_eq t (by omega)]; omega
  rw [pop16_ok t (by omega) (by rw [hkeeps.capacity]; omega), haddr, hlo, hhi, wordOfBytes_low_high, hsp,
    add16_sub16_two]

/-- A push at sp = 0xFFFE wraps sp to 0, where a pop underflows. -/
theorem pop16_of_push16_at_top (v : Word) (s t : State) (h : push16 v s = .ok t) (htop : s.reg .SP = 0xFFFE) :
    t.reg .SP = 0 ∧ pop16 t = .error (.stackUnderflow 0 t) := by
  obtain ⟨-, hsp, -⟩ := push16_spec v s t h
  have hzero : t.reg .SP = 0 := by rw [hsp, htop]; rfl
  exact ⟨hzero, by rw [pop16_underflow t (by rw [hzero]; decide), hzero]⟩

/-- Settles O32: a push in bounds succeeds, and what the pop after it does depends on whether the push wrapped sp. -/
theorem pushThenPopGivesTheValueBack : Obligations.PushThenPopGivesTheValueBack := by
  refine ⟨fun v s hroom hnowrap => ?_, fun v s hcap htop => ?_, fun s hlow => ⟨_, pop16_underflow s hlow, rfl⟩⟩
  · have h := push16_ok v s hroom
    exact ⟨_, _, h, pop16_of_push16 v s _ h hnowrap, reg_setReg_same ..⟩
  · have haddr : pushAddr s = 0xFFFE := congrArg BitVec.toNat htop
    have h := push16_ok v s (by omega)
    exact ⟨_, h, pop16_of_push16_at_top v s _ h htop⟩

end Sys2Proof.Machine
end

section
/-! PROOFS. The operation AddRegister (R96): its sum, its one write, and its absence from the encoding (R97). -/

namespace Sys2Proof.Machine

theorem toNat_add16 (a b : Word) : (add16 a b).toNat = (a.toNat + b.toNat) % 65536 := BitVec.toNat_add a b

theorem execAddRegister_eq (r1 r2 : Reg) (s : State) :
    exec (.addRegister r1 r2) s = .next (s.setReg r1 (add16 (s.reg r1) (s.reg r2))) := rfl

@[simp] theorem encode_addRegister (r1 r2 : Reg) : encode (.addRegister r1 r2) = none := rfl

/-- Settles O37: the operation is one `setReg`, whose rules give the sum in r1 and the frame; both operands are read
from the state before the write, so r1 = r2 is no case of its own. -/
theorem addRegisterAddsModulo65536 : Obligations.AddRegisterAddsModulo65536 := by
  intro r1 r2 s
  refine ⟨⟨_, execAddRegister_eq r1 r2 s, ?_, fun q hq => reg_setReg_ne s r1 q _ hq, setReg_mem .., setReg_halt ..,
    setReg_handlers .., setReg_popReserved ..⟩, encode_addRegister r1 r2, fun p w => decode_ne_addRegister p w r1 r2⟩
  rw [reg_setReg_same, toNat_add16]

end Sys2Proof.Machine
end

section
/-! PROOFS. The operation Signal (43_signal.md): the merge of any handler's answer (R100, R101) and the reference halt
handler (R106). -/

namespace Sys2Proof.Machine

/-! ## The dispatch of any handler (R100, R101) -/

theorem dispatch_of_ok (h : View → View × HandlerOutcome) (s : State) (hout : (h s.view).2 = .ok) :
    dispatch h s = .ok (s.merge (h s.view).1) := by
  rw [dispatch, trapReturn, hout]

theorem dispatch_of_err (h : View → View × HandlerOutcome) (s : State) (e : HandlerError)
    (hout : (h s.view).2 = .err e) : dispatch h s = .error (.handlerFailure e (s.merge (h s.view).1)) := by
  rw [dispatch, trapReturn, hout]

theorem merge_halt_of_engine (s : State) (v : View) (h : s.halt = true) : (s.merge v).halt = true := by
  rw [merge_halt, h, Bool.true_or]

theorem merge_halt_of_handler (s : State) (v : View) (h : v.halt = true) : (s.merge v).halt = true := by
  rw [merge_halt, h, Bool.or_true]

/-- Settles O39: on success and on failure alike the state left is the merge of the handler's view. -/
theorem anyHandlerIsMergedAndItsFailureKeepsItsWrites : Obligations.AnyHandlerIsMergedAndItsFailureKeepsItsWrites :=
  fun h s =>
    ⟨s.merge (h s.view).1, dispatch_of_ok h s, dispatch_of_err h s, merge_reg s _, merge_mem s _, merge_halt s _,
      merge_halt_of_engine s _, merge_halt_of_handler s _, merge_handlers s _, merge_popReserved s _⟩

/-! ## The reference driver's binding (R102, R106) -/

theorem find_bind_same (t : HandlerTable) (code : Byte) (h : Handler) :
    HandlerTable.find (HandlerTable.bind t code h) code = some h := by
  rw [HandlerTable.bind, find_insert _ _ _ _ (by simp), if_pos rfl]

theorem load_handlers (s t : State) (origin : Nat) (bytes : List Byte) (h : s.load origin bytes = .ok t) :
    t.handlers = s.handlers := by
  by_cases hin : origin + bytes.length ≤ s.mem.capacity
  · rw [load_ok s origin bytes hin] at h; cases h; rfl
  · rw [load_error s origin bytes (by omega)] at h; cases h

/-- The driver's boot has no register to set, so it ends with the load. -/
theorem driverBoot_eq_load (image : List Byte) :
    driverBoot image =
      ((State.construct Config.referenceMemSize Config.referencePopReserved).register 0xF0 .halt).load 0 image := by
  simp only [driverBoot, boot, List.foldl_cons, List.foldl_nil]
  generalize State.load _ 0 image = loaded
  cases loaded <;> rfl

theorem driverBoot_binds_halt (image : List Byte) (s : State) (h : driverBoot image = .ok s) :
    HandlerTable.find s.handlers 0xF0 = some .halt := by
  rw [driverBoot_eq_load] at h
  rw [load_handlers _ s 0 image h, State.register, find_bind_same]

/-! ## The halt handler, and the run that stops at it (R106) -/

theorem haltHandler_body (v : View) : Handler.halt.body v = ({ v with halt := true }, .ok) := rfl

theorem merge_haltHandler (s : State) : s.merge (Handler.halt.body s.view).1 = { s with halt := true } := by
  rw [haltHandler_body, State.merge, Bool.or_true, view_regs, view_mem]

theorem execSignal_haltHandler (code : Byte) (s : State) (h : HandlerTable.find s.handlers code = some .halt) :
    exec (.signal code) s = .next { s with halt := true } := by
  rw [execSignal_bound code s .halt h, dispatch_of_ok _ s (congrArg Prod.snd (haltHandler_body _)), finish_ok,
    merge_haltHandler]

/-- One step that ends Ok with halt set ends the run (R86). -/
theorem runLoop_of_step_halts (n : Nat) (s t : State) (hstep : step s = .next t) (hhalt : t.halt = true) :
    runLoop (n + 1) s = .halted t := by
  simp only [runLoop, hstep, hhalt, if_true]

/-- Settles O40: the handler's answer, the driver's binding, the decoder on F0 F0 and the merge of the answer; the run
stops since the step of a fetched Signal is its execute phase on the advanced state, which has the same table. -/
theorem haltHandlerOnlySetsHalt : Obligations.HaltHandlerOnlySetsHalt := by
  refine ⟨haltHandler_body, driverBoot_binds_halt, fun p => decode_signal p 0xF0, fun s code hbound => ?_⟩
  refine ⟨execSignal_haltHandler code s hbound, fun hfetched n => ?_⟩
  have hstep : step s = .next { advance s with halt := true } := by
    rw [step_of_fetched s _ hfetched, execSignal_haltHandler code (advance s) hbound]
  exact runLoop_of_step_halts n s _ hstep rfl

end Sys2Proof.Machine
end

section
/-! PROOFS. The decoder's failures (R61 to R63): which words have one, and what it carries. -/

namespace Sys2Proof.Machine

/-! ## PopRegister's field (R62, R63) -/

theorem indexField_toNat (hi : Byte) : (indexField hi).toNat = hi.toNat % 16 := by
  simp [indexField, BitVec.extractLsb'_toNat]

theorem reservedField_toNat (hi : Byte) : (reservedField hi).toNat = hi.toNat / 16 := by
  have := hi.isLt
  simp only [reservedField, BitVec.extractLsb'_toNat, Nat.shiftRight_eq_div_pow]
  omega

theorem reservedField_eq_zero_iff (hi : Byte) : reservedField hi = 0 ↔ hi.toNat < 16 := by
  rw [← BitVec.toNat_inj, reservedField_toNat, show BitVec.toNat (0 : BitVec 4) = 0 from rfl]
  omega

/-- The operand byte of a PopRegister word names no register under the policy. -/
def NamesNoRegister : PopReserved → Byte → Prop
  | .ignore, hi => 8 ≤ hi.toNat % 16
  | .reject, hi => 8 ≤ hi.toNat

/-- What InvalidRegister carries for an operand byte that names no register (R112). -/
def invalidRegisterInfo : PopReserved → Byte → Byte
  | .ignore, hi => (indexField hi).zeroExtend 8
  | .reject, hi => hi

theorem invalidRegisterInfo_ignore_toNat (hi : Byte) : (invalidRegisterInfo .ignore hi).toNat = hi.toNat % 16 := by
  rw [invalidRegisterInfo, BitVec.zeroExtend_eq_setWidth, BitVec.toNat_setWidth, indexField_toNat]
  omega

theorem regOfIndex_indexField_eq_none_iff (hi : Byte) : regOfIndex (indexField hi) = none ↔ 8 ≤ hi.toNat % 16 := by
  rw [← Option.isNone_iff_eq_none, ← Option.not_isSome, regOfIndex_isSome, indexField_toNat]
  simp

/-- An index that names no register fails with the index, which under Reject is the whole byte, its reserved bits
being 0. -/
theorem decodePop_of_namesNoRegister (p : PopReserved) (hi : Byte) (h : NamesNoRegister p hi) :
    decodePop p hi = .error (.invalidRegister (invalidRegisterInfo p hi)) := by
  cases p with
  | ignore => rw [decodePop, if_neg (by simp), (regOfIndex_indexField_eq_none_iff hi).mpr h, invalidRegisterInfo]
  | reject =>
    by_cases hres : reservedField hi = 0
    · have hidx : 8 ≤ hi.toNat % 16 := by
        rw [Nat.mod_eq_of_lt ((reservedField_eq_zero_iff hi).mp hres)]
        exact h
      rw [decodePop, if_neg (by simp [hres]), (regOfIndex_indexField_eq_none_iff hi).mpr hidx]
      simp only [zeroExtend_indexField hi hres, invalidRegisterInfo]
    · rw [decodePop, if_pos ⟨rfl, hres⟩, invalidRegisterInfo]

theorem decodePop_of_not_namesNoRegister (p : PopReserved) (hi : Byte) (h : ¬ NamesNoRegister p hi) :
    ∃ i, decodePop p hi = .ok i := by
  have hidx : ¬ 8 ≤ hi.toNat % 16 := by cases p <;> simp only [NamesNoRegister] at h <;> omega
  have hres : p = .reject → reservedField hi = 0 := by
    rintro rfl
    rw [reservedField_eq_zero_iff]
    simp only [NamesNoRegister] at h
    omega
  obtain ⟨r, hr⟩ := Option.ne_none_iff_exists'.mp (mt (regOfIndex_indexField_eq_none_iff hi).mp hidx)
  exact ⟨_, (decodePop_eq_ok_iff ..).mpr ⟨hres, r, hr, rfl⟩⟩

theorem decodePop_eq_error_iff (p : PopReserved) (hi : Byte) (e : DecodeError) :
    decodePop p hi = .error e ↔ NamesNoRegister p hi ∧ e = .invalidRegister (invalidRegisterInfo p hi) := by
  by_cases h : NamesNoRegister p hi
  · simp [decodePop_of_namesNoRegister p hi h, h, eq_comm]
  · obtain ⟨i, hok⟩ := decodePop_of_not_namesNoRegister p hi h
    simp [hok, h]

/-! ## Any word (R61) -/

/-- The two ways a word fails to decode. -/
theorem decode_eq_error_iff (p : PopReserved) (w : Word) (e : DecodeError) :
    decode p w = .error e ↔
      (lowByte w ∉ definedOpcodes ∧ e = .unknownOpcode (lowByte w)) ∨
        (lowByte w = 0x02 ∧ NamesNoRegister p (highByte w) ∧
          e = .invalidRegister (invalidRegisterInfo p (highByte w))) := by
  rw [← decodePop_eq_error_iff]
  constructor
  · intro h
    by_cases hlo : lowByte w ∈ definedOpcodes
    · rw [← wordOfBytes_low_high w] at h
      simp only [definedOpcodes, List.mem_cons, List.not_mem_nil, or_false] at hlo
      obtain hlo | hlo | hlo | hlo | hlo := hlo <;> rw [hlo] at h
      · cases (decode_nop ..).symm.trans h
      · cases (decode_push ..).symm.trans h
      · exact .inr ⟨hlo, (decode_pop ..).symm.trans h⟩
      · cases (decode_addStack ..).symm.trans h
      · cases (decode_signal ..).symm.trans h
    · have hu := decode_unknownOpcode p _ (highByte w) hlo
      rw [wordOfBytes_low_high, h] at hu
      exact .inl ⟨hlo, Except.error.inj hu⟩
  · rintro (⟨hlo, rfl⟩ | ⟨hlo, hpop⟩)
    · rw [← decode_unknownOpcode p _ (highByte w) hlo, wordOfBytes_low_high]
    · rw [← hpop, ← decode_pop, ← hlo, wordOfBytes_low_high]

end Sys2Proof.Machine
end

section
/-! PROOFS. The fault kinds (R108 to R117). `StepFault` lists every way a step can fail, with its condition, its info
value and the state it leaves; each statement about one kind reads its rows off the list. -/

namespace Sys2Proof.Machine

open Safety

/-! ## The execute phase on the advanced state -/

/-- The step executes an operation that begins with a pop. -/
def FetchesPop (s : State) : Prop := (∃ r, fetched s = some (.popRegister r)) ∨ fetched s = some .addStack

theorem step_of_first_pop_fails (s : State) (f : Fault) (h : FetchesPop s) (hp : pop16 (advance s) = .error f) :
    step s = .fault f := by
  obtain ⟨r, hi⟩ | hi := h <;> rw [step_of_fetched s _ hi]
  · exact execPopRegister_error r _ f hp
  · exact execAddStack_first _ f hp

/-- The third row of R95: the second pop underflows on the state the first one left. -/
theorem execAddStack_second_underflows (s : State) (h2 : 2 ≤ (s.reg .SP).toNat) (h4 : (s.reg .SP).toNat < 4)
    (hb : (s.reg .SP).toNat ≤ s.mem.capacity) :
    exec .addStack s =
      .fault (.stackUnderflow (sub16 (s.reg .SP) 2) (s.setReg .SP (sub16 (s.reg .SP) 2))) := by
  have hsecond := pop16_underflow (s.setReg .SP (sub16 (s.reg .SP) 2))
    (by rw [reg_setReg_same, toNat_sub16_two _ h2]; omega)
  rw [reg_setReg_same] at hsecond
  exact execAddStack_second s _ _ _ (pop16_ok s h2 hb) hsecond

/-! ## Every way a step fails -/

/-- The failures of a step, one per row of R109's table and condition that raises it. -/
inductive StepFault (s : State) : Fault → Prop where
  /-- R110. -/
  | fetch (hout : s.mem.capacity ≤ (s.reg .PC).toNat + 1) : StepFault s (.fetchFault (s.reg .PC) s)
  /-- R111. -/
  | unknownOpcode (w : Word) (hw : fetch s = .ok w) (hop : lowByte w ∉ definedOpcodes) :
      StepFault s (.unknownOpcode (lowByte w) (advance s))
  /-- R112. -/
  | invalidRegister (w : Word) (hw : fetch s = .ok w) (hop : lowByte w = 0x02)
      (hnone : NamesNoRegister s.popReserved (highByte w)) :
      StepFault s (.invalidRegister (invalidRegisterInfo s.popReserved (highByte w)) (advance s))
  /-- R113. -/
  | memRead (hpop : FetchesPop s) (hlow : 2 ≤ (s.reg .SP).toNat) (hout : s.mem.capacity < (s.reg .SP).toNat) :
      StepFault s (.memReadFault (sub16 (s.reg .SP) 2) (advance s))
  /-- R114. -/
  | memWrite (imm : Byte) (hpush : fetched s = some (.push imm)) (hout : s.mem.capacity ≤ (s.reg .SP).toNat + 1) :
      StepFault s (.memWriteFault (s.reg .SP) (advance s))
  /-- R115, the first pop. -/
  | underflow (hpop : FetchesPop s) (hlow : (s.reg .SP).toNat < 2) :
      StepFault s (.stackUnderflow (s.reg .SP) (advance s))
  /-- R115, the second pop of AddStack. -/
  | secondUnderflow (hadd : fetched s = some .addStack) (h2 : 2 ≤ (s.reg .SP).toNat) (h4 : (s.reg .SP).toNat < 4)
      (hin : (s.reg .SP).toNat ≤ s.mem.capacity) :
      StepFault s
        (.stackUnderflow (sub16 (s.reg .SP) 2) ((advance s).setReg .SP (sub16 (s.reg .SP) 2)))
  /-- R116. -/
  | unknownSignal (code : Byte) (hsig : fetched s = some (.signal code))
      (hfind : HandlerTable.find s.handlers code = none) : StepFault s (.unknownSignal code (advance s))
  /-- R117. -/
  | handlerFailure (code : Byte) (h : Handler) (e : HandlerError) (hsig : fetched s = some (.signal code))
      (hfind : HandlerTable.find s.handlers code = some h) (herr : (h.body (advance s).view).2 = .err e) :
      StepFault s (.handlerFailure e ((advance s).merge (h.body (advance s).view).1))

theorem StepFault.step_eq {s : State} {f : Fault} (h : StepFault s f) : step s = .fault f := by
  cases h with
  | fetch hout => exact step_of_fetch_error s _ (fetch_error s hout)
  | unknownOpcode w hw hop =>
    exact step_of_decode_error s w (.unknownOpcode _) hw ((decode_eq_error_iff ..).mpr (.inl ⟨hop, rfl⟩))
  | invalidRegister w hw hop hnone =>
    exact step_of_decode_error s w (.invalidRegister _) hw ((decode_eq_error_iff ..).mpr (.inr ⟨hop, hnone, rfl⟩))
  | memRead hpop hlow hout => exact step_of_first_pop_fails s _ hpop (pop16_error (advance s) hlow hout)
  | memWrite imm hpush hout =>
    rw [step_of_fetched s _ hpush, execPush_eq, push16_error _ (advance s) hout, finish_error]
    rfl
  | underflow hpop hlow => exact step_of_first_pop_fails s _ hpop (pop16_underflow (advance s) hlow)
  | secondUnderflow hadd h2 h4 hin =>
    exact (step_of_fetched s _ hadd).trans (execAddStack_second_underflows (advance s) h2 h4 hin)
  | unknownSignal code hsig hfind => exact (step_of_fetched s _ hsig).trans (execSignal_unbound code (advance s) hfind)
  | handlerFailure code h e hsig hfind herr =>
    rw [step_of_fetched s _ hsig, execSignal_bound code (advance s) h hfind, dispatch_of_err h.body (advance s) e herr,
      finish_error]

/-- A first pop that fails is R113's or R115's. -/
theorem stepFault_of_first_pop (s : State) (f : Fault) (h : FetchesPop s) (hp : pop16 (advance s) = .error f) :
    StepFault s f := by
  obtain ⟨rfl, hlow⟩ | ⟨rfl, hlow, hout⟩ := pop16_fault _ f hp
  · exact .underflow h hlow
  · exact .memRead h hlow hout

theorem stepFault_of_exec (s : State) (i : Instr) (f : Fault) (hi : fetched s = some i)
    (h : exec i (advance s) = .fault f) : StepFault s f := by
  have hcase := exec_cases i (advance s)
  rw [h] at hcase
  cases hcase with
  | pushFault imm _ hb => exact .memWrite imm hi hb
  | popFault r _ _ hp => exact stepFault_of_first_pop s f (.inl ⟨r, hi⟩) hp
  | addFirst _ _ hp => exact stepFault_of_first_pop s f (.inr hi) hp
  | addSecond _ a s1 hp hlt =>
    obtain ⟨rfl, h2, hin, -, -⟩ := pop16_next _ s1 a hp
    rw [reg_setReg_same, toNat_sub16_two _ h2] at hlt
    rw [reg_setReg_same]
    have h4 : ((advance s).reg .SP).toNat < 4 := by omega
    exact .secondUnderflow hi h2 h4 hin
  | signalUnbound code _ hf => exact .unknownSignal code hi hf
  | signalFault code _ g e hf ho => exact .handlerFailure code g e hi hf ho

theorem step_eq_fault_iff (s : State) (f : Fault) : step s = .fault f ↔ StepFault s f := by
  refine ⟨fun h => ?_, StepFault.step_eq⟩
  obtain ⟨hout, -, hs⟩ | ⟨w, e, hw, hd, -, hs⟩ | ⟨w, i, hw, hd, hi, hs⟩ := step_cases s <;> rw [hs] at h
  · cases h; exact .fetch hout
  · cases h
    obtain ⟨hop, rfl⟩ | ⟨hop, hnone, rfl⟩ := (decode_eq_error_iff ..).mp hd
    · exact .unknownOpcode w hw hop
    · exact .invalidRegister w hw hop hnone
  · exact stepFault_of_exec s i f hi h

/-! ## One statement per kind -/

/-- Settles O45, by the one row that gives FetchFault. -/
theorem fetchFaultChangesNothing : Obligations.FetchFaultChangesNothing := by
  refine fun s => ⟨fun hout => (StepFault.fetch hout).step_eq, fun p l h => ?_⟩
  cases (step_eq_fault_iff ..).mp h with
  | fetch hout => exact ⟨hout, rfl, rfl⟩

/-- Settles O46, by the one row that gives UnknownOpcode. -/
theorem unknownOpcodeOnlyAdvances : Obligations.UnknownOpcodeOnlyAdvances := by
  refine ⟨fun s w hw hop => (StepFault.unknownOpcode w hw hop).step_eq, fun s o l h => ?_⟩
  cases (step_eq_fault_iff ..).mp h with
  | unknownOpcode w hw hop => exact ⟨w, hw, rfl, hop⟩

/-- The row of R112 with the policy named. -/
theorem step_invalidRegister (s : State) (w : Word) (p : PopReserved) (hw : fetch s = .ok w) (hop : lowByte w = 0x02)
    (hp : s.popReserved = p) (hnone : NamesNoRegister p (highByte w)) :
    step s = .fault (.invalidRegister (invalidRegisterInfo p (highByte w)) (advance s)) := by
  subst hp
  exact (StepFault.invalidRegister w hw hop hnone).step_eq

/-- Settles O47: the one row that gives InvalidRegister, read under each policy. -/
theorem invalidRegisterOnlyAdvances : Obligations.InvalidRegisterOnlyAdvances := by
  refine ⟨fun s w hw hop => ⟨fun hp hnone => ?_, fun hp hnone => ?_⟩, fun s v l h => ?_⟩
  · exact ⟨_, invalidRegisterInfo_ignore_toNat _, step_invalidRegister s w .ignore hw hop hp hnone⟩
  · exact step_invalidRegister s w .reject hw hop hp hnone
  · cases (step_eq_fault_iff ..).mp h with
    | invalidRegister w hw hop hnone =>
      exact ⟨w, hw, hop, fun hp => by rwa [hp] at hnone, fun hp => by rwa [hp] at hnone⟩

/-- Settles O48: the one row that gives MemReadFault; a fetch out of bounds has the row of FetchFault. -/
theorem memReadFaultComesFromTheFirstPop : Obligations.MemReadFaultComesFromTheFirstPop := by
  refine ⟨fun s hpop hlow hout => (StepFault.memRead hpop hlow hout).step_eq, fun s a l h => ?_,
    fun s hout => (StepFault.fetch hout).step_eq⟩
  cases (step_eq_fault_iff ..).mp h with
  | memRead hpop hlow hout => exact ⟨hpop, hlow, hout, rfl⟩

/-- Settles O49, by the one row that gives MemWriteFault. -/
theorem memWriteFaultComesFromPushOnly : Obligations.MemWriteFaultComesFromPushOnly := by
  refine ⟨fun s imm hpush hout => (StepFault.memWrite imm hpush hout).step_eq, fun s a l h => ?_⟩
  cases (step_eq_fault_iff ..).mp h with
  | memWrite imm hpush hout => exact ⟨⟨imm, hpush⟩, hout, rfl⟩

/-- Settles O50: the two rows that give StackUnderflow, from the first pop and from the second. -/
theorem stackUnderflowBeforeAnyArithmetic : Obligations.StackUnderflowBeforeAnyArithmetic := by
  refine ⟨pop16_underflow, fun s hpop hlow => (StepFault.underflow hpop hlow).step_eq,
    fun s hadd hsp hin => (StepFault.secondUnderflow hadd (by omega) (by omega) hin).step_eq, fun s v l h => ?_⟩
  cases (step_eq_fault_iff ..).mp h with
  | underflow hpop hlow =>
    obtain hreg | hadd := hpop
    · exact .inl ⟨hreg, hlow⟩
    · exact .inr ⟨hadd, by omega⟩
  | secondUnderflow hadd _ h4 _ => exact .inr ⟨hadd, h4⟩

/-- Settles O51: the row that gives UnknownSignal and the row that gives HandlerFailure. -/
theorem signalFaultsByLookupAndByHandler : Obligations.SignalFaultsByLookupAndByHandler := by
  refine ⟨fun s code hsig hfind => (StepFault.unknownSignal code hsig hfind).step_eq, fun s code l h => ?_,
    fun s code h v e hsig hfind hbody => ?_, fun s e l h => ?_⟩
  · cases (step_eq_fault_iff ..).mp h with
    | unknownSignal _ hsig hfind => exact ⟨hsig, hfind⟩
  · have hfault := (StepFault.handlerFailure code h e hsig hfind (congrArg Prod.snd hbody)).step_eq
    rw [hbody] at hfault
    exact hfault
  · cases (step_eq_fault_iff ..).mp h with
    | handlerFailure code g _ hsig hfind herr => exact ⟨code, g, _, hsig, hfind, Prod.ext rfl herr⟩

end Sys2Proof.Machine
end

section
/-! PROOFS. The execute phase (R79), read off the list of its ways `ExecCase`: what it always keeps, which registers and
which bytes an operation can change, and that none is refused. -/

namespace Sys2Proof.Machine

open Safety

/-- The list of `ExecCase` says what each outcome is, so it determines the execute phase. -/
theorem ExecCase.exec_eq {i : Instr} {s : State} {o : Host.Outcome State Fault Refusal} (h : ExecCase i s o) :
    exec i s = o := by
  cases h with
  | nop => rfl
  | push imm _ t hp => rw [execPush_eq, hp, finish_ok]
  | pushFault imm _ hb => rw [execPush_eq, push16_error _ _ hb, finish_error]
  | pop r _ v t hp => exact execPopRegister_ok r s t v hp
  | popFault r _ f hp => exact execPopRegister_error r s f hp
  | addFirst _ f hp => exact execAddStack_first s f hp
  | addSecond _ a s1 hp hlt => exact execAddStack_second s s1 a _ hp (pop16_underflow s1 hlt)
  | add _ a s1 b s2 t hp hq hr => rw [execAddStack_push s s1 s2 a b hp hq, hr, finish_ok]
  | addRegister r1 r2 => exact execAddRegister_eq r1 r2 s
  | signalUnbound c _ hf => exact execSignal_unbound c s hf
  | signal c _ h hf ho => rw [execSignal_bound c s h hf, dispatch_of_ok _ s ho, finish_ok]
  | signalFault c _ h e hf ho => rw [execSignal_bound c s h hf, dispatch_of_err _ s e ho, finish_error]

theorem execCase_of_next {i : Instr} {s t : State} (h : exec i s = .next t) : ExecCase i s (.next t) :=
  h ▸ exec_cases i s

/-! ## No refusal (R79) -/

theorem exec_ne_refused (i : Instr) (s : State) (r : Refusal) : exec i s ≠ .refused r := by
  intro h
  have hcase := exec_cases i s
  rw [h] at hcase
  cases hcase

theorem step_ne_refused (s : State) (r : Refusal) : step s ≠ .refused r := by
  obtain ⟨-, -, hs⟩ | ⟨_, _, -, -, -, hs⟩ | ⟨_, i, -, -, -, hs⟩ := step_cases s <;> rw [hs]
  · nofun
  · nofun
  · exact exec_ne_refused i (advance s) r

/-- Settles O8: no way of an execute phase is a refusal, and the other ends of a step are faults. -/
theorem nothingIsRefused : Obligations.NothingIsRefused := ⟨step_ne_refused, exec_ne_refused⟩

/-! ## What every execute phase keeps, whether it ends Ok or with a fault -/

/-- A Pop16 that fails leaves the state it was given. -/
theorem pop16_fault_left {s : State} {f : Fault} (h : pop16 s = .error f) : f.left = s := by
  obtain ⟨rfl, -⟩ | ⟨rfl, -, -⟩ := pop16_fault s f h <;> rfl

theorem pop16_keeps {s t : State} {v : Word} (h : pop16 s = .ok (v, t)) : Keeps s t := by
  obtain ⟨-, -, -, -, hk⟩ := pop16_next s t v h
  exact hk

theorem pop16_mem {s t : State} {v : Word} (h : pop16 s = .ok (v, t)) : t.mem = s.mem := by
  obtain ⟨rfl, -⟩ := pop16_next s t v h
  rfl

theorem pop16_halt {s t : State} {v : Word} (h : pop16 s = .ok (v, t)) : t.halt = s.halt := by
  obtain ⟨rfl, -⟩ := pop16_next s t v h
  rfl

theorem pop16_reg_ne {s t : State} {v : Word} (h : pop16 s = .ok (v, t)) {q : Reg} (hq : q ≠ .SP) :
    t.reg q = s.reg q := by
  obtain ⟨rfl, -⟩ := pop16_next s t v h
  exact reg_setReg_ne _ _ _ _ hq

theorem push16_keeps {v : Word} {s t : State} (h : push16 v s = .ok t) : Keeps s t := by
  obtain ⟨-, -, -, -, -, -, -, hk⟩ := push16_spec v s t h
  exact hk

theorem push16_halt {v : Word} {s t : State} (h : push16 v s = .ok t) : t.halt = s.halt := by
  obtain ⟨-, -, -, -, -, -, hhalt, -⟩ := push16_spec v s t h
  exact hhalt

theorem push16_reg_ne {v : Word} {s t : State} (h : push16 v s = .ok t) {q : Reg} (hq : q ≠ .SP) :
    t.reg q = s.reg q := by
  obtain ⟨-, -, hregs, -⟩ := push16_spec v s t h
  exact hregs q hq

theorem push16_byte_ne {v : Word} {s t : State} (h : push16 v s = .ok t) {a : Nat} (ha : a ≠ pushAddr s)
    (ha' : a ≠ pushAddr s + 1) : t.mem.byte a = s.mem.byte a := by
  obtain ⟨-, -, -, -, -, hframe, -⟩ := push16_spec v s t h
  exact hframe a ha ha'

theorem ExecCase.keeps {i : Instr} {s : State} {o : Host.Outcome State Fault Refusal} (h : ExecCase i s o) :
    Keeps s (outcomePair s o).1 := by
  cases h with
  | nop | pushFault | signalUnbound => exact Keeps.refl s
  | push imm _ t hp => exact push16_keeps hp
  | pop r _ v t hp => exact (pop16_keeps hp).trans (keeps_setReg t r v)
  | popFault r _ f hp | addFirst _ f hp => rw [outcomePair, pop16_fault_left hp]; exact Keeps.refl s
  | addSecond _ a s1 hp hlt => exact pop16_keeps hp
  | add _ a s1 b s2 t hp hq hr => exact ((pop16_keeps hp).trans (pop16_keeps hq)).trans (push16_keeps hr)
  | addRegister r1 r2 => exact keeps_setReg s r1 _
  | signal c _ h hf ho => exact keeps_merge_body h s
  | signalFault c _ h e hf ho => exact keeps_merge_body h s

/-- Only a Signal can change halt (R26). -/
theorem ExecCase.halt_eq {i : Instr} {s : State} {o : Host.Outcome State Fault Refusal} (h : ExecCase i s o)
    (hi : ∀ code, i ≠ .signal code) : (outcomePair s o).1.halt = s.halt := by
  cases h with
  | nop | pushFault | addRegister => rfl
  | push imm _ t hp => exact push16_halt hp
  | pop r _ v t hp => exact (setReg_halt t r v).trans (pop16_halt hp)
  | popFault r _ f hp | addFirst _ f hp => rw [outcomePair, pop16_fault_left hp]
  | addSecond _ a s1 hp hlt => exact pop16_halt hp
  | add _ a s1 b s2 t hp hq hr => exact (push16_halt hr).trans ((pop16_halt hq).trans (pop16_halt hp))
  | signalUnbound c | signal c | signalFault c => exact absurd rfl (hi c)

theorem exec_next_keeps {i : Instr} {s t : State} (h : exec i s = .next t) : Keeps s t := (execCase_of_next h).keeps

theorem exec_next_halt {i : Instr} {s t : State} (h : exec i s = .next t) (hi : ∀ code, i ≠ .signal code) :
    t.halt = s.halt := (execCase_of_next h).halt_eq hi

/-! ## Which registers an operation can change (R24, R25) -/

/-- The operation can write the register: as its named destination, by a stack primitive, or by a handler. -/
def MayWrite : Instr → Reg → Prop
  | .nop, _ => False
  | .push _, q => q = .SP
  | .popRegister r, q => q = .SP ∨ q = r
  | .addStack, q => q = .SP
  | .addRegister r1 _, q => q = r1
  | .signal _, _ => True

theorem exec_next_reg_frame {i : Instr} {s t : State} (h : exec i s = .next t) {q : Reg} (hq : ¬ MayWrite i q) :
    t.reg q = s.reg q := by
  cases execCase_of_next h with
  | nop => rfl
  | push imm _ _ hp => exact push16_reg_ne hp hq
  | pop r _ v u hp =>
    obtain ⟨hsp, hr⟩ := not_or.mp hq
    exact (reg_setReg_ne u r q v hr).trans (pop16_reg_ne hp hsp)
  | add _ a s1 b s2 _ hp hq' hr =>
    exact (push16_reg_ne hr hq).trans ((pop16_reg_ne hq' hq).trans (pop16_reg_ne hp hq))
  | addRegister r1 r2 => exact reg_setReg_ne s r1 q _ hq
  | signal => exact absurd trivial hq

/-- Settles O24: of the operations that can write a cell other than SP and PC, each is one of the three. -/
theorem ordinaryCellsHaveNoOtherWriter : Obligations.OrdinaryCellsHaveNoOtherWriter := by
  intro i s t r hsp _ h hne
  have hw : MayWrite i r := Classical.not_not.mp fun hw => hne (exec_next_reg_frame h hw)
  cases i with
  | nop => exact hw.elim
  | push imm => exact absurd hw hsp
  | popRegister q => exact .inl (by rw [hw.resolve_left hsp])
  | addStack => exact absurd hw hsp
  | addRegister q q' => exact .inr (.inl ⟨q', by rw [show r = q from hw]⟩)
  | signal code => exact .inr (.inr ⟨code, rfl⟩)

/-! ## Which bytes an operation can change -/

theorem execPopRegister_mem {r : Reg} {s t : State} (h : exec (.popRegister r) s = .next t) : t.mem = s.mem := by
  cases execCase_of_next h with
  | pop _ _ v u hp => exact (setReg_mem u r v).trans (pop16_mem hp)

theorem execPush_byte_frame {imm : Byte} {s t : State} (h : exec (.push imm) s = .next t) {a : Nat}
    (ha : a ≠ pushAddr s) (ha' : a ≠ pushAddr s + 1) : t.mem.byte a = s.mem.byte a := by
  cases execCase_of_next h with
  | push _ _ _ hp => exact push16_byte_ne hp ha ha'

/-- Two pops that succeed: where sp was, where it is, and that memory is as before. -/
theorem pop16_twice {s s1 s2 : State} {a b : Word} (hp : pop16 s = .ok (a, s1)) (hq : pop16 s1 = .ok (b, s2)) :
    4 ≤ (s.reg .SP).toNat ∧ (s.reg .SP).toNat ≤ s.mem.capacity ∧ pushAddr s2 = (s.reg .SP).toNat - 4 ∧
      s2.mem = s.mem := by
  obtain ⟨rfl, h2, hin, -, -⟩ := pop16_next s s1 a hp
  obtain ⟨rfl, h2', -, -, -⟩ := pop16_next _ s2 b hq
  have hsp := toNat_sub16_two _ h2
  rw [reg_setReg_same] at h2'
  refine ⟨by omega, hin, ?_, rfl⟩
  rw [pushAddr, reg_setReg_same, reg_setReg_same, toNat_sub16_two _ h2']
  omega

theorem execAddStack_byte_frame {s t : State} (h : exec .addStack s = .next t) :
    ∃ x s1 y s2, pop16 s = .ok (x, s1) ∧ pop16 s1 = .ok (y, s2) ∧ pushAddr s2 = (s.reg .SP).toNat - 4 ∧
      ∀ a, a ≠ pushAddr s2 → a ≠ pushAddr s2 + 1 → t.mem.byte a = s.mem.byte a := by
  cases execCase_of_next h with
  | add _ x s1 y s2 _ hp hq hr =>
    obtain ⟨-, -, haddr, hmem⟩ := pop16_twice hp hq
    exact ⟨x, s1, y, s2, hp, hq, haddr, fun a ha ha' => by rw [push16_byte_ne hr ha ha', hmem]⟩

/-- Settles O43: the three operations leave memory as it is, and change the registers `MayWrite` lists. -/
theorem nonStoringOperationsFrame : Obligations.NonStoringOperationsFrame := by
  refine ⟨fun i s t hi h => ?_, fun s t h q => exec_next_reg_frame h id,
    fun r s t h q hsp hr => exec_next_reg_frame h (not_or.mpr ⟨hsp, hr⟩), fun r1 r2 s t h q hq => exec_next_reg_frame h hq⟩
  have hk := exec_next_keeps h
  have hhalt := exec_next_halt h fun code hc => by
    obtain rfl | ⟨_, rfl⟩ | ⟨_, _, rfl⟩ := hi <;> cases hc
  have hmem : t.mem = s.mem := by
    obtain rfl | ⟨r, rfl⟩ | ⟨r1, r2, rfl⟩ := hi
    · cases h; rfl
    · exact execPopRegister_mem h
    · cases h; rfl
  exact ⟨fun a => by rw [hmem], hk.capacity, hhalt, hk.handlers, hk.popReserved⟩

/-- Settles O44: both operations write SP only and store the two bytes of one push. -/
theorem storingOperationsFrame : Obligations.StoringOperationsFrame := by
  refine ⟨fun i s t hi h => ?_, fun imm s t h a ha ha' => execPush_byte_frame h ha ha',
    fun s t h => execAddStack_byte_frame h⟩
  have hk := exec_next_keeps h
  have hhalt := exec_next_halt h fun code hc => by obtain ⟨_, rfl⟩ | rfl := hi <;> cases hc
  refine ⟨fun q hq => exec_next_reg_frame h ?_, hk.capacity, hhalt, hk.handlers, hk.popReserved⟩
  obtain ⟨_, rfl⟩ | rfl := hi <;> exact hq

end Sys2Proof.Machine
end

section
/-! PROOFS. The invariants of the step: the canonical forms, the parameters and the table, and halt (R6, R26, R27). Each
follows from `Keeps`, which every step satisfies whether it ends Ok or with a fault. -/

namespace Sys2Proof.Machine

open Safety

theorem Keeps.wf {s t : State} (h : Keeps s t) (hs : s.wf) : t.wf := by
  obtain ⟨hmem, htable⟩ := hs
  exact ⟨h.memWf hmem, h.handlers ▸ htable⟩

theorem after_of_next {s t : State} (h : step s = .next t) : after s = t := by rw [after, transaction, h, outcomePair]

theorem after_of_fault {s : State} {f : Fault} (h : step s = .fault f) : after s = f.left := by
  rw [after, transaction, h, outcomePair]

theorem keeps_advance (s : State) : Keeps s (advance s) := keeps_setReg s .PC _

@[simp] theorem decodeFault_left (e : DecodeError) (s : State) : (decodeFault e s).left = s := by cases e <;> rfl

/-- Where a step executes an instruction, it leaves what the execute phase on the advanced state does. -/
theorem after_of_fetched {s : State} {i : Instr} (h : fetched s = some i) :
    after s = (outcomePair (advance s) (exec i (advance s))).1 := by
  rw [after, transaction, step_of_fetched s i h]
  cases he : exec i (advance s) with
  | next t => rfl
  | fault f => rfl
  | refused r => exact absurd he (exec_ne_refused i (advance s) r)

theorem keeps_after (s : State) : Keeps s (after s) := by
  obtain ⟨-, -, hs⟩ | ⟨_, e, -, -, -, hs⟩ | ⟨_, i, -, -, hi, -⟩ := step_cases s
  · rw [after_of_fault hs]; exact Keeps.refl s
  · rw [after_of_fault hs, decodeFault_left]; exact keeps_advance s
  · rw [after_of_fetched hi]; exact (keeps_advance s).trans (exec_cases i (advance s)).keeps

/-- Settles O3: the state a step leaves has the table it had and a memory still in canonical form. -/
theorem everyStepKeepsWellFormed : Obligations.EveryStepKeepsWellFormed := fun s hs =>
  have hwf : (after s).wf := (keeps_after s).wf hs
  ⟨fun _ h => after_of_next h ▸ hwf, fun _ h => after_of_fault h ▸ hwf⟩

/-- Settles O5: three parts of what every step keeps. -/
theorem noStepChangesParametersOrTable : Obligations.NoStepChangesParametersOrTable := fun s =>
  have hk := keeps_after s
  ⟨hk.capacity, hk.popReserved, hk.handlers⟩

/-! ## Construction, the boot sequence and every reachable state (R131) -/

theorem construct_wf (n : Nat) (p : PopReserved) : (State.construct n p).wf :=
  ⟨⟨List.Pairwise.nil, fun _ hc => absurd hc List.not_mem_nil⟩, List.Pairwise.nil⟩

/-- Settles O2: both lists of a constructed engine are empty. -/
theorem constructionIsWellFormed : Obligations.ConstructionIsWellFormed := ⟨construct_wf, construct_wf _ _⟩

theorem register_wf {s : State} (hs : s.wf) (code : Byte) (h : Handler) : (s.register code h).wf := by
  obtain ⟨hmem, htable⟩ := hs
  exact ⟨hmem, bind_wf _ code h htable⟩

/-- A load that succeeds was in bounds and replaced the memory alone. -/
theorem load_next {s t : State} {origin : Nat} {bytes : List Byte} (h : s.load origin bytes = .ok t) :
    origin + bytes.length ≤ s.mem.capacity ∧ t = { s with mem := s.mem.setBytes origin bytes } := by
  by_cases hin : origin + bytes.length ≤ s.mem.capacity
  · rw [load_ok s origin bytes hin] at h; cases h; exact ⟨hin, rfl⟩
  · rw [load_error s origin bytes (by omega)] at h; cases h

theorem load_wf {s t : State} (hs : s.wf) {origin : Nat} {bytes : List Byte} (h : s.load origin bytes = .ok t) : t.wf := by
  obtain ⟨hmem, htable⟩ := hs
  obtain ⟨hin, rfl⟩ := load_next h
  exact ⟨setBytes_wf _ _ _ hmem hin, htable⟩

theorem boot_wf {n : Nat} {p : PopReserved} {bindings : List (Byte × Handler)} {origin : Nat} {image : List Byte}
    {regs : List (Reg × Word)} {s : State} (h : boot n p bindings origin image regs = .ok s) : s.wf := by
  have hbound : (bindings.foldl (fun s b => s.register b.1 b.2) (State.construct n p)).wf :=
    List.foldlRecOn bindings _ (construct_wf n p) fun _ hs b _ => register_wf hs b.1 b.2
  simp only [boot] at h
  split at h
  · cases h
  · next loaded hload =>
    cases h
    exact List.foldlRecOn regs _ (load_wf hbound hload) fun _ hs b _ => (keeps_setReg _ b.1 b.2).wf hs

theorem steps_wf {s t : State} (h : Steps s t) (hs : s.wf) : t.wf := by
  induction h with
  | refl => exact hs
  | tail t u _ hstep ih => exact (everyStepKeepsWellFormed t ih).1 u hstep

/-- Settles O4: the boot sequence establishes the canonical forms and O3 keeps them along the steps. -/
theorem reachableStatesAreWellFormed : Obligations.ReachableStatesAreWellFormed := by
  rintro s ⟨n, p, bindings, origin, image, regs, s0, hboot, hsteps⟩
  exact steps_wf hsteps (boot_wf hboot)

/-! ## Halt (R26) -/

theorem after_halt {s : State} (h : ∀ code, fetched s ≠ some (.signal code)) : (after s).halt = s.halt := by
  obtain ⟨-, -, hs⟩ | ⟨_, e, -, -, -, hs⟩ | ⟨_, i, -, -, hi, -⟩ := step_cases s
  · rw [after_of_fault hs]; rfl
  · rw [after_of_fault hs, decodeFault_left, advance_halt]
  · rw [after_of_fetched hi]
    exact (exec_cases i (advance s)).halt_eq fun code hc => h code (hc ▸ hi)

theorem load_halt {s t : State} {origin : Nat} {bytes : List Byte} (h : s.load origin bytes = .ok t) :
    t.halt = s.halt := by
  obtain ⟨-, rfl⟩ := load_next h
  rfl

theorem hostWrite8_halt {s t : State} {a : Nat} {v : Byte} (h : s.hostWrite8 a v = .ok t) : t.halt = s.halt := by
  unfold State.hostWrite8 at h
  split at h <;> cases h
  rfl

theorem hostWrite16_halt {s t : State} {a : Nat} {v : Word} (h : s.hostWrite16 a v = .ok t) : t.halt = s.halt := by
  unfold State.hostWrite16 at h
  split at h <;> cases h
  rfl

/-- Settles O6: a step keeps halt once set, leaves it alone but for a Signal, and no port touches it. -/
theorem haltNeverRevertsAndOnlySignalSetsIt : Obligations.HaltNeverRevertsAndOnlySignalSetsIt := by
  refine ⟨construct_halt, fun s => (keeps_after s).halt, fun s hne => ?_, fun i s t h hne => ?_, fun s =>
    ⟨fun _ _ => rfl, fun _ _ => rfl, fun _ _ _ => load_halt, fun _ _ _ => hostWrite8_halt, fun _ _ _ => hostWrite16_halt⟩⟩
  · by_contra hno
    exact hne (after_halt (not_exists.mp hno))
  · by_contra hno
    exact hne (exec_next_halt h (not_exists.mp hno))

end Sys2Proof.Machine
end

section
/-! PROOFS. Straight-line code (R136): SP stays at most PC, so no push reaches a byte above the instruction. -/

namespace Sys2Proof.Machine

open Safety

theorem pc_inBounds_of_fetched {s : State} {i : Instr} (h : fetched s = some i) :
    (s.reg .PC).toNat + 1 < s.mem.capacity := by
  obtain ⟨-, hf⟩ | ⟨hin, -⟩ := fetch_cases s
  · rw [fetched, hf] at h; cases h
  · exact hin

theorem fetched_ne_addRegister (s : State) (r1 r2 : Reg) : fetched s ≠ some (.addRegister r1 r2) := by
  intro h
  obtain ⟨-, hn, -⟩ | ⟨_, _, -, -, hn, -⟩ | ⟨w, i, -, hd, hi, -⟩ := step_cases s
  · rw [hn] at h; cases h
  · rw [hn] at h; cases h
  · rw [hi] at h; cases h
    exact decode_ne_addRegister _ w r1 r2 hd

/-- In a capacity of at most 65535 the advance of an instruction that was fetched does not wrap. -/
theorem advance_pc_toNat {s : State} {i : Instr} (hcap : s.mem.capacity ≤ 65535) (h : fetched s = some i) :
    ((advance s).reg .PC).toNat = (s.reg .PC).toNat + 2 := by
  have hin := pc_inBounds_of_fetched h
  rw [advance_pc, toNat_add16_two]
  omega

theorem straightLine_popRegister {s : State} {r : Reg} (hs : StraightLine s) (h : fetched s = some (.popRegister r)) :
    r ≠ .PC ∧ r ≠ .SP := by
  unfold StraightLine at hs
  rw [h] at hs
  exact ⟨by rintro rfl; exact hs, by rintro rfl; exact hs⟩

theorem straightLine_signal {s : State} {code : Byte} {h : Handler} (hs : StraightLine s)
    (hi : fetched s = some (.signal code)) (hf : HandlerTable.find s.handlers code = some h) :
    (h.body (advance s).view).1.regs.pc = (advance s).regs.pc ∧
      (h.body (advance s).view).1.regs.sp = (advance s).regs.sp := by
  unfold StraightLine at hs
  rw [hi] at hs
  exact hs h hf

/-- A stack operation raises SP by at most 2. -/
theorem exec_next_sp_le {i : Instr} {s t : State} (h : exec i s = .next t) (hpop : i ≠ .popRegister .SP)
    (hadd : ∀ r1 r2, i ≠ .addRegister r1 r2) (hsig : ∀ code, i ≠ .signal code) :
    (t.reg .SP).toNat ≤ (s.reg .SP).toNat + 2 := by
  cases execCase_of_next h with
  | nop => omega
  | push imm _ _ hp => rw [push16_sp_toNat _ s t hp]; omega
  | pop r _ v u hp =>
    obtain ⟨rfl, hlow, -⟩ := pop16_next s u v hp
    rw [reg_setReg_ne _ r .SP v fun hr => hpop (hr ▸ rfl), reg_setReg_same, toNat_sub16_two _ hlow]
    omega
  | add _ a s1 b s2 _ hp hq hr =>
    obtain ⟨-, -, haddr, -⟩ := pop16_twice hp hq
    rw [pushAddr] at haddr
    rw [push16_sp_toNat _ s2 t hr]
    omega
  | addRegister r1 r2 => exact absurd rfl (hadd r1 r2)
  | signal code => exact absurd rfl (hsig code)

/-- No operation stores above the slot at SP. -/
theorem exec_next_byte_above {i : Instr} {s t : State} (h : exec i s = .next t) (hsig : ∀ code, i ≠ .signal code)
    {a : Nat} (ha : (s.reg .SP).toNat + 1 < a) : t.mem.byte a = s.mem.byte a := by
  cases i with
  | nop => cases h; rfl
  | push imm => exact execPush_byte_frame h (by rw [pushAddr]; omega) (by rw [pushAddr]; omega)
  | popRegister r => rw [execPopRegister_mem h]
  | addStack =>
    obtain ⟨_, _, _, s2, -, -, haddr, hframe⟩ := execAddStack_byte_frame h
    exact hframe a (by omega) (by omega)
  | addRegister r1 r2 => cases h; rfl
  | signal code => exact absurd rfl (hsig code)

/-- A straight-line step leaves PC where the advance put it. -/
theorem straightLine_pc {s t : State} {i : Instr} (hs : StraightLine s) (hi : fetched s = some i)
    (h : exec i (advance s) = .next t) : t.reg .PC = (advance s).reg .PC := by
  cases i with
  | nop | push | addStack => exact exec_next_reg_frame h (by simp [MayWrite])
  | popRegister r => exact exec_next_reg_frame h (by simpa [MayWrite] using (straightLine_popRegister hs hi).1.symm)
  | addRegister r1 r2 => exact absurd hi (fetched_ne_addRegister s r1 r2)
  | signal code =>
    cases execCase_of_next h with
    | signal _ _ g hf ho => exact (straightLine_signal hs hi hf).1

/-- A straight-line step raises SP by at most 2. -/
theorem straightLine_sp_le {s t : State} {i : Instr} (hs : StraightLine s) (hi : fetched s = some i)
    (h : exec i (advance s) = .next t) : (t.reg .SP).toNat ≤ (s.reg .SP).toNat + 2 := by
  rw [← advance_reg_ne s .SP (by decide)]
  cases i with
  | nop | push | addStack => exact exec_next_sp_le h nofun nofun nofun
  | popRegister r =>
    exact exec_next_sp_le h (fun hr => (straightLine_popRegister hs hi).2 (Instr.popRegister.inj hr)) nofun nofun
  | addRegister r1 r2 => exact absurd hi (fetched_ne_addRegister s r1 r2)
  | signal code =>
    cases execCase_of_next h with
    | signal _ _ g hf ho =>
      have hsp : ((advance s).merge (g.body (advance s).view).1).reg .SP = (advance s).reg .SP :=
        (straightLine_signal hs hi hf).2
      rw [hsp]
      omega

/-- Settles O29: PC rises by 2 and SP by at most 2, and what is stored lies at or below SP + 1, hence below the next
instruction. -/
theorem straightLineCodeIsNotOverwrittenAhead : Obligations.StraightLineCodeIsNotOverwrittenAhead := by
  refine ⟨fun s t hcap hs hle hstep => ?_, fun n p => by rw [construct_reg, construct_reg]⟩
  obtain ⟨i, hi, h⟩ := fetched_of_step_next s t hstep
  have hsp := straightLine_sp_le hs hi h
  rw [straightLine_pc hs hi h, advance_pc_toNat hcap hi]
  refine ⟨by omega, fun hsig a ha => ?_⟩
  have hsp1 : ((advance s).reg .SP).toNat + 1 < a := by rw [advance_reg_ne s .SP (by decide)]; omega
  exact exec_next_byte_above h (fun code hc => hsig code (hc ▸ hi)) hsp1

end Sys2Proof.Machine
end

section
/-! PROOFS. Memory in canonical form: it is determined by its bytes (R28, R33), the accesses of mixed widths (R41), and
the writes a host callback answers reach every memory (R99, log 4). -/

namespace Sys2Proof.Machine

/-! ## Extensionality of the canonical form -/

/-- The listed cells are the addresses whose byte is not 0, each with its byte. -/
theorem mem_cells_iff {m : Memory} (hm : m.wf) (c : Host.Cell) : c ∈ m.cells ↔ m.byte c.1 = c.2 ∧ c.2 ≠ 0 := by
  obtain ⟨hsorted, hcells⟩ := hm
  refine ⟨fun hc => ⟨cellAt_of_mem _ hsorted c hc, (hcells c hc).1⟩, fun ⟨hbyte, hne⟩ => ?_⟩
  obtain ⟨d, hd, haddr⟩ : ∃ d ∈ m.cells, d.1 = c.1 := by
    by_contra hno
    push Not at hno
    exact hne (hbyte.symm.trans (cellAt_of_not_mem _ _ hno))
  have hval : m.byte d.1 = d.2 := cellAt_of_mem _ hsorted d hd
  rw [haddr, hbyte] at hval
  rwa [show c = d from Prod.ext haddr.symm hval]

theorem byte_beyond_capacity {m : Memory} (hm : m.wf) {a : Nat} (ha : m.capacity ≤ a) : m.byte a = 0 := by
  obtain ⟨-, hcells⟩ := hm
  refine cellAt_of_not_mem _ _ fun c hc haddr => ?_
  have hlt := (hcells c hc).2
  omega

/-- Lists with rising addresses are equal when they have the same cells. -/
theorem sorted_cells_ext {l l' : List Host.Cell} (hl : l.Pairwise fun c d => c.1 < d.1)
    (hl' : l'.Pairwise fun c d => c.1 < d.1) (h : ∀ c, c ∈ l ↔ c ∈ l') : l = l' := by
  have hnodup : ∀ {k : List Host.Cell}, k.Pairwise (fun c d => c.1 < d.1) → k.Nodup := fun hk =>
    hk.imp fun hlt heq => Nat.ne_of_lt hlt (congrArg Prod.fst heq)
  refine List.Perm.eq_of_pairwise (fun c d _ _ hcd hdc => ?_) hl hl' ?_
  · exact absurd hcd (Nat.lt_asymm hdc)
  · exact (List.perm_ext_iff_of_nodup (hnodup hl) (hnodup hl')).mpr h

/-- Settles O7: the bytes say which cells are listed, and the order says how. -/
theorem memoryIsDeterminedByItsBytes : Obligations.MemoryIsDeterminedByItsBytes := by
  intro m m' hm hm' hcap hbytes
  have hall : ∀ a, m.byte a = m'.byte a := fun a => by
    by_cases ha : a < m.capacity
    · exact hbytes a ha
    · rw [byte_beyond_capacity hm (by omega), byte_beyond_capacity hm' (by omega)]
  have hcells : m.cells = m'.cells :=
    sorted_cells_ext hm.1 hm'.1 fun c => by rw [mem_cells_iff hm, mem_cells_iff hm', hall]
  cases m
  cases m'
  cases hcap
  cases hcells
  rfl

/-! ## Mixed widths (R41) -/

theorem write8_ok (m : Memory) (addr : Nat) (v : Byte) (h : addr < m.capacity) :
    m.write8 addr v = .ok (m.setByte addr v) := by
  rw [Memory.write8, if_neg (by omega)]

/-- Settles O17: each read is given by the bytes the writes before it left. -/
theorem mixedWidthAccessesAgree : Obligations.MixedWidthAccessesAgree := by
  intro m addr hin
  refine ⟨fun v => ?_, fun lo hi => ?_⟩
  · have hw := write16_ok m addr v hin
    obtain ⟨-, hcap, hlo, hhi, -, -⟩ := write16_spec m _ addr v hw
    refine ⟨_, hw, ?_, ?_, ?_⟩
    · rw [read8_ok _ _ (by omega), hlo, lowByte]
    · rw [read8_ok _ _ (by omega), hhi, highByte]
    · rw [read16_ok _ _ (by omega), hlo, hhi, wordOfBytes_low_high]
  · refine ⟨_, _, write8_ok m addr lo (by omega), write8_ok (m.setByte addr lo) (addr + 1) hi hin, ?_,
      fun a ha => byte_setByte_ne m addr a lo ha⟩
    rw [read16_ok ((m.setByte addr lo).setByte (addr + 1) hi) addr hin, byte_setByte_ne _ _ _ _ (by omega), byte_setByte_same, byte_setByte_same, wordOfBytes]

/-! ## The reply of a host callback (R99, log 4) -/

/-- The writes of a callback's answer, done in order. -/
def View.storeAll (v : View) (stores : List Host.Cell) : View := stores.foldl (fun u c => u.store8 c.1 c.2) v

theorem reply_eq (v : View) (r : HandlerReply) : v.reply r = ⟨r.regs, (v.storeAll r.stores).mem, r.halt⟩ := rfl

theorem storeAll_keepsMemory (v : View) (stores : List Host.Cell) : KeepsMemory v (v.storeAll stores) :=
  foldl_keepsMemory (fun u (c : Host.Cell) => u.store8 c.1 c.2) (fun u c => store8_keepsMemory u c.1 c.2) stores v

theorem store8_byte (v : View) {addr : Nat} (b : Byte) (h : addr < v.mem.capacity) (a : Nat) :
    (v.store8 addr b).mem.byte a = if a = addr then b else v.mem.byte a := by
  rw [View.store8, write8_ok _ _ _ h]
  exact byte_setByte ..

/-- The writes that copy a memory's bytes at some addresses. -/
def Memory.copyOf (m : Memory) (addrs : List Nat) : List Host.Cell := addrs.map fun a => (a, m.byte a)

theorem storeAll_copyOf_byte (m : Memory) (addrs : List Nat) (v : View) (h : ∀ a ∈ addrs, a < v.mem.capacity) (a : Nat) :
    (v.storeAll (m.copyOf addrs)).mem.byte a = if a ∈ addrs then m.byte a else v.mem.byte a := by
  induction addrs generalizing v with
  | nil => simp [Memory.copyOf, View.storeAll]
  | cons b rest ih =>
    obtain ⟨hb, hrest⟩ := List.forall_mem_cons.mp h
    have hcap := (store8_keepsMemory v b (m.byte b)).1
    have hstep := ih (v.store8 b (m.byte b)) fun c hc => hcap ▸ hrest c hc
    rw [store8_byte v _ hb] at hstep
    refine hstep.trans ?_
    by_cases hab : a = b
    · simp [hab]
    · simp [hab]

/-- Copying every byte of a memory in canonical form gives that memory. -/
theorem storeAll_copyOf_all {v u : View} (hv : v.mem.wf) (hu : u.mem.wf) (hcap : u.mem.capacity = v.mem.capacity) :
    (v.storeAll (u.mem.copyOf (List.range v.mem.capacity))).mem = u.mem := by
  obtain ⟨hcap', hwf'⟩ := storeAll_keepsMemory v (u.mem.copyOf (List.range v.mem.capacity))
  refine memoryIsDeterminedByItsBytes _ _ (hwf' hv) hu (hcap'.trans hcap.symm) fun a ha => ?_
  rw [hcap'] at ha
  rw [storeAll_copyOf_byte _ _ _ (fun b => List.mem_range.mp), if_pos (List.mem_range.mpr ha)]

/-- Settles O42: a callback that writes every byte of the second view's memory leaves that view. -/
theorem hostRepliesReachEveryView : Obligations.HostRepliesReachEveryView := by
  refine ⟨fun v u out hv hu hcap => ⟨u.mem.copyOf (List.range v.mem.capacity), ?_⟩, fun v r =>
    ⟨(storeAll_keepsMemory v r.stores).1, rfl, rfl⟩⟩
  rw [reply_eq, storeAll_copyOf_all hv hu hcap]

end Sys2Proof.Machine
end

section
/-! PROOFS. The rest of the decoder (R58 to R68): PopRegister's field, AddRegister's absence, and the output bundle. -/

namespace Sys2Proof.Machine

open Safety

/-- Settles O9: all words but one are the encodings of their operations; the one with an operand byte that Nop ignores
is not. -/
theorem writtenOutWordsDecode : Obligations.WrittenOutWordsDecode := fun p =>
  ⟨decode_of_encode p rfl, decode_of_encode p rfl, decode_of_encode p rfl, decode_of_encode p rfl, decode_of_encode p rfl,
    decode_of_encode p rfl, decode_of_encode p rfl, decode_of_encode p rfl, decode_of_encode p rfl,
    decode_of_encode p rfl, decode_of_encode p rfl, decode_of_encode p rfl, decode_nop p 1, decode_push p 0x0A⟩

/-! ## PopRegister's field (R56, R62, R63) -/

/-- The register index table of R19. -/
def indexTable : List (Nat × Reg) := [(0, .A), (1, .B), (2, .C), (3, .M), (4, .SP), (5, .PC), (6, .BP), (7, .FLAGS)]

theorem indexOf_mem_indexTable (r : Reg) : ((indexOf r).toNat, r) ∈ indexTable := by cases r <;> decide

/-- An operand byte that names a register names the one the table gives for its low nibble. -/
theorem decodePop_by_indexTable {p : PopReserved} {hi : Byte} (h : ¬ NamesNoRegister p hi) :
    ∃ r, (hi.toNat % 16, r) ∈ indexTable ∧ decodePop p hi = .ok (.popRegister r) := by
  obtain ⟨i, hok⟩ := decodePop_of_not_namesNoRegister p hi h
  obtain ⟨-, r, hr, rfl⟩ := (decodePop_eq_ok_iff ..).mp hok
  refine ⟨r, ?_, hok⟩
  rw [← indexField_toNat, ← indexOf_of_regOfIndex _ r hr]
  exact indexOf_mem_indexTable r

/-- Settles O12: under each policy the operand byte names a register of the table or none. -/
theorem popRegisterFieldUnderBothPolicies : Obligations.PopRegisterFieldUnderBothPolicies := by
  refine ⟨indexOf_mem_indexTable, fun hi => ⟨fun h => ?_, fun h => ?_, fun h => ?_, fun h => ?_⟩⟩
  · rw [decode_pop]
    exact decodePop_by_indexTable (p := .ignore) (Nat.not_le.mpr h)
  · exact ⟨_, invalidRegisterInfo_ignore_toNat hi, (decode_pop ..).trans (decodePop_of_namesNoRegister .ignore hi h)⟩
  · have hbyte := decodePop_by_indexTable (p := .reject) (Nat.not_le.mpr h)
    rwa [Nat.mod_eq_of_lt (by omega : hi.toNat < 16), ← decode_pop] at hbyte
  · exact (decode_pop ..).trans (decodePop_of_namesNoRegister .reject hi h)

/-! ## AddRegister (R65, R97) -/

/-- Settles O14: no word decodes to AddRegister, so no step fetches it, and 0x04 is no defined opcode. -/
theorem addRegisterIsReachedByTheExecutePortOnly : Obligations.AddRegisterIsReachedByTheExecutePortOnly := by
  refine fun r1 r2 => ⟨encode_addRegister r1 r2, fun p w => decode_ne_addRegister p w r1 r2, fun p w hop => ?_,
    fun s => fetched_ne_addRegister s r1 r2⟩
  rw [← wordOfBytes_low_high w, hop]
  exact decode_unknownOpcode p 0x04 _ (by decide)

/-! ## The output bundle (R68) -/

/-- The register an index of three bits names. -/
def regOfBits (b : BitVec 3) : Reg := (regOfIndex (b.zeroExtend 4)).getD .A

@[simp] theorem regOfBits_indexBits (r : Reg) : regOfBits (indexBits r) = r := by cases r <;> rfl

/-- The decode result a bundle stands for. -/
def readOutput (o : DecoderOutput) : Except DecodeError Instr :=
  if o.ok = 0 then .error (if o.ekind = 0 then .unknownOpcode o.einfo else .invalidRegister o.einfo)
  else
    match o.tag.toNat with
    | 0 => .ok .nop
    | 1 => .ok (.push o.arg8)
    | 2 => .ok (.popRegister (regOfBits o.r1))
    | 3 => .ok .addStack
    | 4 => .ok (.addRegister (regOfBits o.r1) (regOfBits o.r2))
    | _ => .ok (.signal o.arg8)

/-- Nothing of a decode result is lost in its bundle. -/
theorem readOutput_decoderOutput (x : Except DecodeError Instr) : readOutput (decoderOutput x) = x := by
  cases x with
  | error e => cases e <;> rfl
  | ok i =>
    cases i with
    | nop | push | addStack | signal => rfl
    | popRegister r => simp [decoderOutput, opOutput, readOutput]
    | addRegister r1 r2 => simp [decoderOutput, opOutput, readOutput]

theorem opOutput_tag_ne_four {i : Instr} (h : ∀ r1 r2, i ≠ .addRegister r1 r2) : (opOutput i).tag ≠ 4 := by
  cases i with
  | addRegister r1 r2 => exact absurd rfl (h r1 r2)
  | nop | push | popRegister | addStack | signal => simp [opOutput]

/-- Settles O15: the bundle can be read back, and no word decodes to the operation of tag 4. -/
theorem decoderOutputIsFaithful : Obligations.DecoderOutputIsFaithful := by
  refine ⟨Function.LeftInverse.injective readOutput_decoderOutput, fun p w => ?_⟩
  cases hd : decode p w with
  | error e => cases e <;> simp [decoderOutput]
  | ok i => exact opOutput_tag_ne_four fun r1 r2 hi => decode_ne_addRegister p w r1 r2 (hi ▸ hd)

end Sys2Proof.Machine
end

section
/-! PROOFS. Registration (R102, R103), its order with the load (R131), and the model's reset state (log 1). -/

namespace Sys2Proof.Machine

theorem find_bind_ne (t : HandlerTable) {code c : Byte} (h : Handler) (hc : c ≠ code) :
    HandlerTable.find (HandlerTable.bind t code h) c = HandlerTable.find t c := by
  rw [HandlerTable.bind, find_insert _ _ _ _ (by simp), if_neg hc, find_filter, if_neg hc]

theorem register_find_same (s : State) (code : Byte) (h : Handler) :
    HandlerTable.find (s.register code h).handlers code = some h := find_bind_same s.handlers code h

/-- Settles O19: lookup after a bind, at the code bound and at another; the dispatch follows the lookup. -/
theorem registrationOverwritesExactlyOneCode : Obligations.RegistrationOverwritesExactlyOneCode := fun s code h =>
  have hfind := register_find_same s code h
  ⟨hfind, fun _ hc => find_bind_ne s.handlers h hc, execSignal_bound code _ h hfind, rfl, rfl, rfl, rfl⟩

/-- Settles O20: the load reads and writes memory only, registration the table only. -/
theorem registerAndLoadCommute : Obligations.RegisterAndLoadCommute := by
  refine fun s code h origin bytes => ⟨fun t hload => ?_, fun e hload => ?_⟩
  · obtain ⟨hin, rfl⟩ := load_next hload
    exact load_ok (s.register code h) origin bytes hin
  · by_cases hin : origin + bytes.length ≤ s.mem.capacity
    · rw [load_ok s origin bytes hin] at hload; cases hload
    · have hout : s.mem.capacity < origin + bytes.length := by omega
      rw [load_error s origin bytes hout] at hload
      cases hload
      exact load_error (s.register code h) origin bytes hout

/-- Settles O54: the reference values of the parameters are these. -/
theorem resetIsTheReferenceConstruction : Obligations.ResetIsTheReferenceConstruction := rfl

end Sys2Proof.Machine
end

section
/-! PROOFS. The step and the halt flag (R82): with halt changed, everything but a Signal goes the same way of
`ExecCase`. -/

namespace Sys2Proof.Machine

open Safety

/-- The state with the halt flag set to a value. -/
def State.withHalt (b : Bool) (s : State) : State := { s with halt := b }

/-- The outcome with the halt flag of the state it leaves set to a value. -/
def outcomeWithHalt (b : Bool) : Host.Outcome State Fault Refusal → Host.Outcome State Fault Refusal
  | .next t => .next (t.withHalt b)
  | .fault f => .fault (f.withLeft (f.left.withHalt b))
  | .refused r => .refused r

theorem push16_withHalt {v : Word} {s t : State} (b : Bool) (h : push16 v s = .ok t) :
    push16 v (s.withHalt b) = .ok (t.withHalt b) := by
  obtain ⟨hin, -⟩ := push16_spec v s t h
  cases (push16_ok v s hin).symm.trans h
  exact push16_ok v (s.withHalt b) hin

theorem pop16_withHalt {s t : State} {v : Word} (b : Bool) (h : pop16 s = .ok (v, t)) :
    pop16 (s.withHalt b) = .ok (v, t.withHalt b) := by
  obtain ⟨rfl, hlow, hin, rfl, -⟩ := pop16_next s t v h
  exact pop16_ok (s.withHalt b) hlow hin

theorem pop16_withHalt_error {s : State} {f : Fault} (b : Bool) (h : pop16 s = .error f) :
    pop16 (s.withHalt b) = .error (f.withLeft (f.left.withHalt b)) := by
  obtain ⟨rfl, hlow⟩ | ⟨rfl, hlow, hout⟩ := pop16_fault s f h
  · exact pop16_underflow (s.withHalt b) hlow
  · exact pop16_error (s.withHalt b) hlow hout

theorem ExecCase.withHalt {i : Instr} {s : State} {o : Host.Outcome State Fault Refusal} (b : Bool)
    (h : ExecCase i s o) (hi : ∀ code, i ≠ .signal code) : ExecCase i (s.withHalt b) (outcomeWithHalt b o) := by
  cases h with
  | nop => exact .nop _
  | push imm _ t hp => exact .push imm _ _ (push16_withHalt b hp)
  | pushFault imm _ hb => exact .pushFault imm _ hb
  | pop r _ v t hp => exact .pop r _ v _ (pop16_withHalt b hp)
  | popFault r _ f hp => exact .popFault r _ _ (pop16_withHalt_error b hp)
  | addFirst _ f hp => exact .addFirst _ _ (pop16_withHalt_error b hp)
  | addSecond _ a s1 hp hlt => exact .addSecond _ a _ (pop16_withHalt b hp) hlt
  | add _ a s1 c s2 t hp hq hr =>
    exact .add _ a _ c _ _ (pop16_withHalt b hp) (pop16_withHalt b hq) (push16_withHalt b hr)
  | addRegister r1 r2 => exact .addRegister r1 r2 _
  | signalUnbound c | signal c | signalFault c => exact absurd rfl (hi c)

theorem fetch_withHalt {s : State} {w : Word} (b : Bool) (h : fetch s = .ok w) : fetch (s.withHalt b) = .ok w := by
  obtain ⟨-, hf⟩ | ⟨hin, hf⟩ := fetch_cases s <;> rw [hf] at h <;> cases h
  exact fetch_ok (s.withHalt b) hin

theorem step_withHalt {s : State} (b : Bool) (h : ∀ code, fetched s ≠ some (.signal code)) :
    step (s.withHalt b) = outcomeWithHalt b (step s) := by
  obtain ⟨hout, -, hs⟩ | ⟨w, e, hw, hd, -, hs⟩ | ⟨w, i, hw, hd, hi, hs⟩ := step_cases s <;> rw [hs]
  · exact step_of_fetch_error _ _ (fetch_error (s.withHalt b) hout)
  · refine (step_of_decode_error _ w e (fetch_withHalt b hw) hd).trans ?_
    cases e <;> rfl
  · have hcase := (exec_cases i (advance s)).withHalt b fun code hc => h code (hc ▸ hi)
    exact (step_of_decode_ok _ w i (fetch_withHalt b hw) hd).trans hcase.exec_eq

/-- Settles O22, from the outcome with halt changed and what a step other than a Signal leaves in halt. -/
theorem stepDoesNotReadHalt : Obligations.StepDoesNotReadHalt := by
  refine fun s b hsig => ⟨fun t h => ?_, fun f h => ?_⟩
  · refine ⟨?_, by rw [← after_halt hsig, after_of_next h]⟩
    exact (step_withHalt b hsig).trans (by rw [h]; rfl)
  · refine ⟨?_, by rw [← after_halt hsig, after_of_fault h]⟩
    exact (step_withHalt b hsig).trans (by rw [h]; rfl)

end Sys2Proof.Machine
end

section
/-! PROOFS. The flow of control: what a step does to PC (R83), a Push over its own instruction (R50), and Nops (R90,
R132). -/

namespace Sys2Proof.Machine

open Safety

/-- Settles O23: of the instructions a step can execute, two can write PC, and PopRegister PC writes the word it pops. -/
theorem pcChangesOnlyByAdvanceOrTransfer : Obligations.PcChangesOnlyByAdvanceOrTransfer := by
  refine ⟨fun s t hstep hne => ?_, fun s t hi hstep => ?_⟩
  · obtain ⟨i, hi, h⟩ := fetched_of_step_next s t hstep
    have hw : MayWrite i .PC := Classical.not_not.mp fun hw =>
      hne ((exec_next_reg_frame h hw).trans (advance_pc s))
    cases i with
    | nop => exact hw.elim
    | push | addStack => cases hw
    | popRegister r =>
      obtain hsp | rfl := hw
      · cases hsp
      · exact .inl hi
    | addRegister r1 r2 => exact absurd hi (fetched_ne_addRegister s r1 r2)
    | signal code => exact .inr ⟨code, hi⟩
  · rw [step_of_fetched s _ hi] at hstep
    cases execCase_of_next hstep with
    | pop _ _ v u hp =>
      rw [reg_setReg_same, ← advance_mem s, ← advance_reg_ne s .SP (by decide)]
      exact read16_of_pop16 _ u v hp

/-! ## The word Push stores (R57, R91) -/

theorem immWord_eq_wordOfBytes (imm : Byte) : immWord imm = wordOfBytes imm 0 := by
  simp [wordOfBytes_eq_or_shift, immWord]

@[simp] theorem lowByte_immWord (imm : Byte) : lowByte (immWord imm) = imm := by
  rw [immWord_eq_wordOfBytes, lowByte_wordOfBytes]

@[simp] theorem highByte_immWord (imm : Byte) : highByte (immWord imm) = 0 := by
  rw [immWord_eq_wordOfBytes, highByte_wordOfBytes]

theorem push16_exists (v : Word) {s : State} (h : pushAddr s + 1 < s.mem.capacity) : ∃ t, push16 v s = .ok t :=
  ⟨_, push16_ok v s h⟩

/-- Settles O25: the slot at SP is the instruction's own, which was fetched and so is in bounds. -/
theorem pushOverItsOwnWordIsSeenByTheNextFetchOnly : Obligations.PushOverItsOwnWordIsSeenByTheNextFetchOnly := by
  intro s imm hi hsp
  have hin := pc_inBounds_of_fetched hi
  have hspAdv : (advance s).reg .SP = s.reg .PC := (advance_reg_ne s .SP (by decide)).trans hsp
  have haddr : pushAddr (advance s) = (s.reg .PC).toNat := congrArg BitVec.toNat hspAdv
  obtain ⟨t, hp⟩ := push16_exists (immWord imm) (s := advance s) (by rw [haddr, advance_mem]; exact hin)
  obtain ⟨-, hsp', hregs, hlo, hhi, -, -, hk⟩ := push16_spec _ _ _ hp
  rw [haddr] at hlo hhi
  refine ⟨t, by rw [step_of_fetched s _ hi, execPush_eq, hp, finish_ok], ?_, ?_, fun back hmem hpc => ?_⟩
  · rw [hsp', advance_reg_ne s .SP (by decide), add16]
  · rw [hregs .PC (by decide), advance_pc, add16]
  · rw [fetch_ok back (by rw [hmem, hpc, hk.capacity]; exact hin), hmem, hpc, hlo, hhi, wordOfBytes_low_high, immWord]

/-! ## Nop (R90) and the slide over zero bytes (R132) -/

/-- Settles O33: the execute phase of Nop is the identity, so its step is the advance. -/
theorem nopOnlyAdvances : Obligations.NopOnlyAdvances :=
  ⟨fun _ => rfl, fun s hi => step_of_fetched s .nop hi⟩

theorem step_of_zero_word {s : State} (hin : (s.reg .PC).toNat + 1 < s.mem.capacity)
    (hlo : s.mem.byte (s.reg .PC).toNat = 0) (hhi : s.mem.byte ((s.reg .PC).toNat + 1) = 0) :
    step s = .next (advance s) := by
  have hf := fetch_ok s hin
  rw [hlo, hhi] at hf
  exact step_of_decode_ok s _ .nop hf (decode_nop _ 0)

theorem run_succ_of_next {k : Nat} {s t : State} (h : step s = .next t) : core.run (k + 1) s = core.run k t := by
  simp only [Host.Core.run, show core.step s = .next t from h]

theorem setReg_self (s : State) (r : Reg) : s.setReg r (s.reg r) = s := by cases r <;> rfl

theorem setReg_setReg (s : State) (r : Reg) (v w : Word) : (s.setReg r v).setReg r w = s.setReg r w := by
  cases r <;> rfl

/-- Settles O26, by induction on the number of steps: the first one fetches a zero word, and what it leaves has the rest
of the slide before it. -/
theorem zeroBytesAreASlideOfNops : Obligations.ZeroBytesAreASlideOfNops := by
  intro k
  induction k with
  | zero =>
    intro s _ _ _
    rw [Nat.mul_zero, Nat.add_zero, BitVec.ofNat_toNat, BitVec.setWidth_eq, setReg_self]
    rfl
  | succ k ih =>
    intro s hcap hwrap hzero
    have hstep := step_of_zero_word (s := s) (by omega) (hzero _ (by omega) (by omega)) (hzero _ (by omega) (by omega))
    have hpc : ((advance s).reg .PC).toNat = (s.reg .PC).toNat + 2 := by rw [advance_pc, toNat_add16_two]; omega
    have hrest := ih (advance s) (by rw [hpc, advance_mem]; omega) (by rw [hpc]; omega)
      fun a hlow hhigh => hzero a (by omega) (by omega)
    rw [run_succ_of_next hstep, hrest, hpc, advance, setReg_setReg]
    congr 3
    omega

end Sys2Proof.Machine
end

section
/-! PROOFS. The engine as a finite-state machine (R87): from READY it goes through the phases of a step to DONE. -/

namespace Sys2Proof.Machine

open Safety

theorem phaseRun_add (m n : Nat) (c : Phase × State) : phaseRun (m + n) c = phaseRun n (phaseRun m c) := by
  induction m generalizing c with
  | zero => rw [Nat.zero_add, phaseRun]
  | succ m ih => rw [Nat.succ_add, phaseRun, ih, phaseRun]

/-- The machine in DONE with a step's result and state. -/
def doneWith (s : State) : Phase × State := (.done (transaction s).2, (transaction s).1)

/-- `phaseDone` reports the same from every state, since only a refusal would leave the state it is given. -/
theorem phaseDone_of_step {s t : State} {o : Host.Outcome State Fault Refusal} (h : step s = o) :
    phaseDone t o = doneWith s := by
  subst h
  rw [phaseDone, doneWith, transaction]
  cases hs : step s with
  | next u => rfl
  | fault f => rfl
  | refused r => exact absurd hs (step_ne_refused s r)

/-- From EXECUTE the machine is done after one arrow, or after two where it passes through a handler. -/
theorem phaseRun_execute (i : Instr) (s : State) :
    ∃ n, n ≤ 2 ∧ phaseRun n (.execute i, s) = phaseDone s (exec i s) := by
  cases i with
  | signal code =>
    obtain ⟨hf, ht⟩ | ⟨g, hf, ht⟩ := trapEnter_cases code s
    · refine ⟨1, by omega, ?_⟩
      rw [execSignal_unbound code s hf]
      simp only [phaseRun, phaseNext, ht]
    · refine ⟨2, by omega, ?_⟩
      rw [execSignal_bound code s g hf]
      simp only [phaseRun, phaseNext, ht]
  | nop | push | popRegister | addStack | addRegister => exact ⟨1, by omega, rfl⟩

/-- The machine reaches DONE as the step ends: at the fetch, at the decoder, or with the execute phase. -/
theorem phaseRun_ready (s : State) : ∃ n, n ≤ 6 ∧ phaseRun n (.ready, s) = doneWith s := by
  obtain ⟨hout, -, hs⟩ | ⟨w, e, hw, hd, -, hs⟩ | ⟨w, i, hw, hd, -, hs⟩ := step_cases s
  · refine ⟨2, by omega, ?_⟩
    rw [← phaseDone_of_step (t := s) hs]
    simp only [phaseRun, phaseNext, fetch_error s hout]
  · refine ⟨4, by omega, ?_⟩
    rw [← phaseDone_of_step (t := advance s) hs]
    simp only [phaseRun, phaseNext, hw, advance_popReserved, hd]
  · obtain ⟨n, hn, hrun⟩ := phaseRun_execute i (advance s)
    have hready : phaseRun 4 (.ready, s) = (.execute i, advance s) := by
      simp only [phaseRun, phaseNext, hw, advance_popReserved, hd]
    exact ⟨4 + n, by omega, by rw [phaseRun_add, hready, hrun, phaseDone_of_step hs]⟩

/-- Settles O27: the arrow out of DONE leads to READY on the same state. -/
theorem stateMachineAgreesWithStep : Obligations.StateMachineAgreesWithStep := by
  intro s
  obtain ⟨n, hn, hrun⟩ := phaseRun_ready s
  refine ⟨n, hn, hrun, ?_⟩
  rw [phaseRun_add, hrun]
  rfl

end Sys2Proof.Machine
end

section
/-! PROOFS. The run loop (R86): it turns through the steps `LoopsTo` counts, and ends with the first turn that sets halt
or fails. -/

namespace Sys2Proof.Machine

open Safety

/-! ## One turn -/

theorem runLoop_one_eq_running_iff {s t : State} : runLoop 1 s = .running t ↔ step s = .next t ∧ t.halt = false := by
  simp only [runLoop]
  cases step s with
  | next u => grind
  | fault f => simp
  | refused r => simp

theorem runLoop_one_eq_halted_iff {s t : State} : runLoop 1 s = .halted t ↔ step s = .next t ∧ t.halt = true := by
  simp only [runLoop]
  cases step s with
  | next u => grind
  | fault f => simp
  | refused r => simp

theorem runLoop_one_eq_faulted_iff {s : State} {f : Fault} : runLoop 1 s = .faulted f ↔ step s = .fault f := by
  simp only [runLoop]
  cases step s with
  | next u => grind
  | fault g => simp
  | refused r => simp

/-- The run has ended, one way or another. -/
def RunStatus.Ended (r : RunStatus) : Prop := ∀ t, r ≠ .running t

theorem RunStatus.Ended.halted (t : State) : (RunStatus.halted t).Ended := fun _ => nofun

theorem RunStatus.Ended.faulted (f : Fault) : (RunStatus.faulted f).Ended := fun _ => nofun

/-- A turn that does not end the run leads to the run from its state. -/
theorem runLoop_succ_of_running {n : Nat} {s t : State} (h : runLoop 1 s = .running t) :
    runLoop (n + 1) s = runLoop n t := by
  obtain ⟨hstep, hhalt⟩ := runLoop_one_eq_running_iff.mp h
  simp [runLoop, hstep, hhalt]

/-- A turn that ends the run ends it whatever turns are allowed after it. -/
theorem runLoop_succ_of_ended {n : Nat} {s : State} (h : (runLoop 1 s).Ended) : runLoop (n + 1) s = runLoop 1 s := by
  simp only [runLoop] at h ⊢
  cases hstep : step s with
  | next u =>
    cases hu : u.halt with
    | true => simp [hu]
    | false => exact absurd (by simp [hstep, hu]) (h u)
  | fault f => rfl
  | refused r => rfl

/-! ## The turns `LoopsTo` counts -/

theorem runLoop_of_loopsTo {k : Nat} {s u : State} (h : LoopsTo k s u) (n : Nat) :
    runLoop (k + n) s = runLoop n u := by
  induction h with
  | zero s => rw [Nat.zero_add]
  | succ k s t u hstep hhalt _ ih =>
    rw [Nat.succ_add, runLoop_succ_of_running (runLoop_one_eq_running_iff.mpr ⟨hstep, hhalt⟩), ih]

theorem runLoop_eq_running_iff (n : Nat) (s t : State) : runLoop n s = .running t ↔ LoopsTo n s t := by
  refine ⟨fun h => ?_, fun h => runLoop_of_loopsTo h 0⟩
  induction n generalizing s with
  | zero => cases h; exact .zero _
  | succ n ih =>
    by_cases hend : (runLoop 1 s).Ended
    · rw [runLoop_succ_of_ended hend] at h
      exact absurd h (hend t)
    · obtain ⟨u, hu⟩ := not_forall_not.mp hend
      rw [runLoop_succ_of_running hu] at h
      obtain ⟨hstep, hhalt⟩ := runLoop_one_eq_running_iff.mp hu
      exact .succ n s u t hstep hhalt (ih u h)

/-- A run has ended exactly where some turn ends it, after fewer turns than are allowed. -/
theorem runLoop_eq_ended_iff {r : RunStatus} (hr : r.Ended) (n : Nat) (s : State) :
    runLoop n s = r ↔ ∃ k u, k < n ∧ LoopsTo k s u ∧ runLoop 1 u = r := by
  constructor
  · intro h
    induction n generalizing s with
    | zero => exact absurd h.symm (hr s)
    | succ n ih =>
      by_cases hend : (runLoop 1 s).Ended
      · exact ⟨0, s, by omega, .zero s, (runLoop_succ_of_ended hend).symm.trans h⟩
      · obtain ⟨t, ht⟩ := not_forall_not.mp hend
        obtain ⟨k, u, hk, hloop, hu⟩ := ih t ((runLoop_succ_of_running ht).symm.trans h)
        obtain ⟨hstep, hhalt⟩ := runLoop_one_eq_running_iff.mp ht
        exact ⟨k + 1, u, by omega, .succ k s t u hstep hhalt hloop, hu⟩
  · rintro ⟨k, u, hk, hloop, rfl⟩
    obtain ⟨m, rfl⟩ : ∃ m, n = k + (m + 1) := ⟨n - k - 1, by omega⟩
    rw [runLoop_of_loopsTo hloop, runLoop_succ_of_ended hr]

theorem runLoop_add_of_ended {r : RunStatus} (hr : r.Ended) {n : Nat} {s : State} (h : runLoop n s = r) (k : Nat) :
    runLoop (n + k) s = r := by
  obtain ⟨j, u, hj, hloop, hu⟩ := (runLoop_eq_ended_iff hr n s).mp h
  exact (runLoop_eq_ended_iff hr _ s).mpr ⟨j, u, by omega, hloop, hu⟩

theorem runLoop_ne_refused (n : Nat) (s : State) (r : Refusal) : runLoop n s ≠ .refused r := by
  induction n generalizing s with
  | zero => nofun
  | succ n ih =>
    rw [runLoop]
    cases hstep : step s with
    | next t => cases ht : t.halt <;> simp [ht, ih]
    | fault f => nofun
    | refused q => exact absurd hstep (step_ne_refused s q)

/-! ## The steps of a run -/

theorem steps_head {s t u : State} (hstep : step s = .next t) (h : Steps t u) : Steps s u := by
  induction h with
  | refl => exact .tail s s t (.refl s) hstep
  | tail v w _ hw ih => exact .tail s v w ih hw

theorem steps_of_loopsTo {n : Nat} {s t : State} (h : LoopsTo n s t) : Steps s t := by
  induction h with
  | zero s => exact .refl s
  | succ n s t u hstep _ _ ih => exact steps_head hstep ih

/-- Every turn that is counted leaves halt false. -/
theorem loopsTo_halt {n : Nat} {s t : State} (h : LoopsTo n s t) (hn : n ≠ 0) : t.halt = false := by
  induction h with
  | zero s => exact absurd rfl hn
  | succ n s t u _ hhalt hloop ih =>
    cases hloop with
    | zero => exact hhalt
    | succ => exact ih (by omega)

theorem runLoop_eq_halted_iff (n : Nat) (s t : State) :
    runLoop n s = .halted t ↔ ∃ k u, k < n ∧ LoopsTo k s u ∧ step u = .next t ∧ t.halt = true := by
  rw [runLoop_eq_ended_iff (.halted t)]
  simp only [runLoop_one_eq_halted_iff]

theorem runLoop_eq_faulted_iff (n : Nat) (s : State) (f : Fault) :
    runLoop n s = .faulted f ↔ ∃ k u, k < n ∧ LoopsTo k s u ∧ step u = .fault f := by
  rw [runLoop_eq_ended_iff (.faulted f)]
  simp only [runLoop_one_eq_faulted_iff]

/-- Settles O28: a run is the turns `LoopsTo` counts and, once it has ended, the one turn that ended it. -/
theorem runsEndHaltedOrFaultedForGood : Obligations.RunsEndHaltedOrFaultedForGood := by
  refine ⟨runLoop_eq_running_iff, runLoop_eq_halted_iff, runLoop_eq_faulted_iff, fun n k s t h => ?_,
    fun n k s f h => ?_, fun n s t h => ?_, runLoop_ne_refused⟩
  · obtain ⟨_, u, -, hloop, hstep, hhalt⟩ := (runLoop_eq_halted_iff n s t).mp h
    exact ⟨runLoop_add_of_ended (.halted t) h k, hhalt, .tail s u t (steps_of_loopsTo hloop) hstep⟩
  · obtain ⟨_, u, -, hloop, hstep⟩ := (runLoop_eq_faulted_iff n s f).mp h
    exact ⟨runLoop_add_of_ended (.faulted f) h k, u, steps_of_loopsTo hloop, hstep⟩
  · have hloop := (runLoop_eq_running_iff n s t).mp h
    exact ⟨steps_of_loopsTo hloop, loopsTo_halt hloop⟩

end Sys2Proof.Machine
end

section
/-! PROOFS. The results of the stack operations by sp: Push (R91), PopRegister (R92) and AddStack (R93, R95). -/

namespace Sys2Proof.Machine

/-- Settles O34: Push is one Push16 of the immediate's word. -/
theorem pushStoresTheZeroExtendedImmediate : Obligations.PushStoresTheZeroExtendedImmediate := by
  refine fun imm s => ⟨fun hin => ?_, fun hout => ?_⟩
  · obtain ⟨t, hp⟩ := push16_exists (immWord imm) hin
    obtain ⟨-, hsp, -, hlo, hhi, -⟩ := push16_spec _ s t hp
    exact ⟨t, by rw [execPush_eq, hp, finish_ok], hsp, hlo.trans (lowByte_immWord imm), hhi.trans (highByte_immWord imm)⟩
  · rw [execPush_eq, push16_error _ s hout, finish_error]

/-- Settles O35, by the three ways of Pop16; the register is written after the decrement, so it wins where it is SP. -/
theorem popRegisterStoresThePoppedWord : Obligations.PopRegisterStoresThePoppedWord := by
  refine fun r s => ⟨fun hlow hin => ?_, fun hlow => execPopRegister_error r s _ (pop16_underflow s hlow),
    fun hlow hout => execPopRegister_error r s _ (pop16_error s hlow hout)⟩
  have hp := pop16_ok s hlow hin
  refine ⟨_, _, read16_of_pop16 s _ _ hp, execPopRegister_ok r s _ _ hp, reg_setReg_same .., fun hr => ?_, rfl⟩
  rw [reg_setReg_ne _ r .SP _ hr.symm, reg_setReg_same, sub16]

/-! ## AddStack (R93, R95) -/

/-- The second pop reads two bytes below the first. -/
theorem read16_of_pop16_twice {s s1 s2 : State} {a b : Word} (hp : pop16 s = .ok (a, s1)) (hq : pop16 s1 = .ok (b, s2)) :
    s.mem.read16 ((s.reg .SP).toNat - 4) = .ok b := by
  obtain ⟨rfl, hlow, -, -, -⟩ := pop16_next s s1 a hp
  have hread := read16_of_pop16 _ s2 b hq
  rwa [reg_setReg_same, toNat_sub16_two _ hlow, setReg_mem, Nat.sub_sub] at hread

theorem pop16_exists_twice {s : State} (hlow : 4 ≤ (s.reg .SP).toNat) (hin : (s.reg .SP).toNat ≤ s.mem.capacity) :
    ∃ a s1 b s2, pop16 s = .ok (a, s1) ∧ pop16 s1 = .ok (b, s2) := by
  have hsp : ((s.setReg .SP (sub16 (s.reg .SP) 2)).reg .SP).toNat = (s.reg .SP).toNat - 2 := by
    rw [reg_setReg_same, toNat_sub16_two _ (by omega)]
  exact ⟨_, _, _, _, pop16_ok s (by omega) hin, pop16_ok _ (by omega) (by rw [hsp, setReg_mem]; omega)⟩

/-- The push that follows two pops finds its slot in memory. -/
theorem push16_exists_after_pops {s s1 s2 : State} {a b : Word} (v : Word) (hp : pop16 s = .ok (a, s1))
    (hq : pop16 s1 = .ok (b, s2)) : ∃ t, push16 v s2 = .ok t := by
  obtain ⟨hlow, hin, haddr, hmem⟩ := pop16_twice hp hq
  exact push16_exists v (by rw [haddr, hmem]; omega)

/-- After a first pop the second is in bounds too. -/
theorem pop16_second_ne_memReadFault {s s1 : State} {a : Word} (hp : pop16 s = .ok (a, s1)) (addr : Word) (l : State) :
    pop16 s1 ≠ .error (.memReadFault addr l) := by
  intro hq
  obtain ⟨rfl, hlow, hin, -, -⟩ := pop16_next s s1 a hp
  obtain ⟨hf, -⟩ | ⟨-, -, hout⟩ := pop16_fault _ _ hq
  · cases hf
  · rw [reg_setReg_same, toNat_sub16_two _ hlow, setReg_mem] at hout
    omega

/-- The sum is stored over the second word, and SP ends two below where it was. -/
theorem execAddStack_sum {s s1 s2 : State} {a b : Word} (hp : pop16 s = .ok (a, s1)) (hq : pop16 s1 = .ok (b, s2)) :
    ∃ t, exec .addStack s = .next t ∧ t.reg .SP = s.reg .SP - 2 ∧
      (t.mem.byte ((s.reg .SP).toNat - 4)).toNat = (a.toNat + b.toNat) % 65536 % 256 ∧
      (t.mem.byte ((s.reg .SP).toNat - 3)).toNat = (a.toNat + b.toNat) % 65536 / 256 := by
  obtain ⟨hlow, -, haddr, -⟩ := pop16_twice hp hq
  obtain ⟨t, hr⟩ := push16_exists_after_pops (add16 a b) hp hq
  obtain ⟨-, hsp, -, hlo, hhi, -⟩ := push16_spec _ s2 t hr
  rw [haddr] at hlo hhi
  rw [show (s.reg .SP).toNat - 4 + 1 = (s.reg .SP).toNat - 3 by omega] at hhi
  refine ⟨t, by rw [execAddStack_push s s1 s2 a b hp hq, hr, finish_ok], ?_, ?_, ?_⟩
  · obtain ⟨rfl, -⟩ := pop16_next s s1 a hp
    obtain ⟨rfl, -⟩ := pop16_next _ s2 b hq
    simp [hsp, add16, sub16]
  · rw [hlo, lowByte_toNat, toNat_add16]
  · rw [hhi, highByte_toNat, toNat_add16]

/-- Settles O36: one row of R95 for each way the two pops go; the push after them does not fail. -/
theorem addStackOutcomesBySp : Obligations.AddStackOutcomesBySp := by
  refine ⟨fun s => ⟨fun hlow => execAddStack_first s _ (pop16_underflow s hlow),
    fun hlow hout => execAddStack_first s _ (pop16_error s hlow hout),
    fun hsp hin => execAddStack_second_underflows s (by omega) (by omega) hin, fun hlow hin => ?_⟩,
    fun s a s1 hp => ⟨pop16_second_ne_memReadFault hp, fun b s2 hq v => push16_exists_after_pops v hp hq⟩⟩
  obtain ⟨a, s1, b, s2, hp, hq⟩ := pop16_exists_twice hlow hin
  obtain ⟨t, h⟩ := execAddStack_sum hp hq
  exact ⟨a, b, t, read16_of_pop16 s s1 a hp, read16_of_pop16_twice hp hq, h⟩

end Sys2Proof.Machine
end

section
/-! PROOFS. The operation Signal (R98), and what its handler sees within a step (R121, R137). -/

namespace Sys2Proof.Machine

/-- Settles O38: the lookup decides whether a handler runs, and its outcome how the merge of its view is reported. -/
theorem signalRunsTheBoundHandler : Obligations.SignalRunsTheBoundHandler := by
  refine fun code s => ⟨execSignal_unbound code s, fun h v out hf hbody => ?_⟩
  have hbody' : h.body s.view = (v, out) := hbody
  rw [execSignal_bound code s h hf]
  refine ⟨fun hout => ?_, fun e hout => ?_⟩
  · rw [dispatch_of_ok _ s (by rw [hbody', hout]), finish_ok, hbody', State.merge]
  · rw [dispatch_of_err _ s e (by rw [hbody', hout]), finish_error, hbody', State.merge]

/-- Settles O41: the view is that of the advanced state. -/
theorem handlerSeesTheAdvancedPc : Obligations.HandlerSeesTheAdvancedPc := fun s code h hi hf =>
  ⟨(advance s).view, (step_of_fetched s _ hi).trans (execSignal_bound code (advance s) h hf), advance_pc s,
    advance_reg_ne s, advance_mem s, advance_halt s⟩

end Sys2Proof.Machine
end

section
/-! PROOFS. What a failed step leaves (R118), row by row of `StepFault`, and the status codes (R109). -/

namespace Sys2Proof.Machine

open Safety

/-- What R118 says of registers, memory, halt and PC after a fault. -/
def FaultIsPrecise (s : State) (f : Fault) : Prop :=
  ((∀ r, r ≠ .PC → f.left.reg r = s.reg r) ∨
      (fetched s = some .addStack ∧ ((s.reg .SP).toNat = 2 ∨ (s.reg .SP).toNat = 3) ∧
        f = .stackUnderflow (s.reg .SP - 2) f.left ∧ f.left.reg .SP = s.reg .SP - 2 ∧
        ∀ r, r ≠ .PC → r ≠ .SP → f.left.reg r = s.reg r) ∨ f.code = 8) ∧
    (f.code ≠ 8 → f.left.mem = s.mem ∧ f.left.halt = s.halt) ∧
    (f.code = 1 → f.left.reg .PC = s.reg .PC) ∧
    (f.code ≠ 1 → f.code ≠ 8 → f.left.reg .PC = s.reg .PC + 2) ∧
    (f.code = 8 → ∃ code h v e, fetched s = some (.signal code) ∧ HandlerTable.find s.handlers code = some h ∧
      h.body (advance s).view = (v, .err e) ∧
      f = .handlerFailure e { s with regs := v.regs, mem := v.mem, halt := s.halt || v.halt })

/-- Most faults leave the advanced state. -/
theorem faultIsPrecise_of_left_advance {s : State} {f : Fault} (hleft : f.left = advance s) (h1 : f.code ≠ 1)
    (h8 : f.code ≠ 8) : FaultIsPrecise s f := by
  rw [FaultIsPrecise, hleft]
  exact ⟨.inl (advance_reg_ne s), fun _ => ⟨advance_mem s, advance_halt s⟩, fun h => absurd h h1,
    fun _ _ => advance_pc s, fun h => absurd h h8⟩

theorem faultIsPrecise_fetchFault (s : State) (pc : Word) : FaultIsPrecise s (.fetchFault pc s) :=
  ⟨.inl fun _ _ => rfl, fun _ => ⟨rfl, rfl⟩, fun _ => rfl, fun h => absurd rfl h, nofun⟩

/-- The third row of R95: the decrement of the first pop stays. -/
theorem faultIsPrecise_secondUnderflow {s : State} (hadd : fetched s = some .addStack) (h2 : 2 ≤ (s.reg .SP).toNat)
    (h4 : (s.reg .SP).toNat < 4) :
    FaultIsPrecise s (.stackUnderflow (sub16 (s.reg .SP) 2) ((advance s).setReg .SP (sub16 (s.reg .SP) 2))) := by
  have hregs (r : Reg) (hpc : r ≠ .PC) (hsp : r ≠ .SP) :
      ((advance s).setReg .SP (sub16 (s.reg .SP) 2)).reg r = s.reg r :=
    (reg_setReg_ne _ _ _ _ hsp).trans (advance_reg_ne s r hpc)
  exact ⟨.inr (.inl ⟨hadd, by omega, rfl, reg_setReg_same .., hregs⟩), fun _ => ⟨rfl, rfl⟩, nofun,
    fun _ _ => (reg_setReg_ne _ _ _ _ (by decide)).trans (advance_pc s), nofun⟩

theorem faultIsPrecise_handlerFailure {s : State} {code : Byte} {h : Handler} {e : HandlerError}
    (hsig : fetched s = some (.signal code)) (hfind : HandlerTable.find s.handlers code = some h)
    (herr : (h.body (advance s).view).2 = .err e) :
    FaultIsPrecise s (.handlerFailure e ((advance s).merge (h.body (advance s).view).1)) :=
  ⟨.inr (.inr rfl), fun hc => absurd rfl hc, nofun, fun _ hc => absurd rfl hc, fun _ =>
    ⟨code, h, _, e, hsig, hfind, Prod.ext rfl herr, rfl⟩⟩

theorem StepFault.faultIsPrecise {s : State} {f : Fault} (h : StepFault s f) : FaultIsPrecise s f := by
  cases h with
  | fetch => exact faultIsPrecise_fetchFault s _
  | unknownOpcode | invalidRegister | memRead | memWrite | underflow | unknownSignal =>
    exact faultIsPrecise_of_left_advance rfl nofun nofun
  | secondUnderflow hadd h2 h4 => exact faultIsPrecise_secondUnderflow hadd h2 h4
  | handlerFailure code g e hsig hfind herr => exact faultIsPrecise_handlerFailure hsig hfind herr

/-- Settles O52: the first part holds of every step, the rest row by row of `StepFault`. -/
theorem faultsArePrecise : Obligations.FaultsArePrecise := by
  intro s f h
  obtain ⟨hcap, hpolicy, htable⟩ := noStepChangesParametersOrTable s
  rw [after_of_fault h] at hcap hpolicy htable
  exact ⟨⟨htable, hpolicy, hcap⟩, ((step_eq_fault_iff s f).mp h).faultIsPrecise⟩

/-! ## Status codes (R109) -/

theorem fault_code_ne_zero (f : Fault) : f.code ≠ 0 := by cases f <;> nofun

/-- Settles O53: an Ok step has code 0 and a fault its kind's, which is not 0. -/
theorem statusCodesFollowTheTable : Obligations.StatusCodesFollowTheTable := by
  refine ⟨fun s => ?_, fun s f h => by rw [transaction, h]; rfl,
    fun _ _ _ _ _ _ _ _ => ⟨rfl, rfl, rfl, rfl, rfl, rfl, rfl, rfl⟩, fun _ _ _ => ⟨rfl, rfl, rfl⟩⟩
  rw [transaction]
  cases hs : step s with
  | next t => simp [outcomePair, StepResult.code]
  | fault f => simp [outcomePair, StepResult.code, fault_code_ne_zero]
  | refused r => exact absurd hs (step_ne_refused s r)

end Sys2Proof.Machine
end
